-- ==== Sys2Proof/Word.lean ====
section
/-! DEFINITION. The fixed-width bit vectors of the machine. -/

namespace Sys2Proof

/-- One byte of memory (20_memory.md R40). -/
abbrev Byte := BitVec 8

/-- `bits(msize)`, the 16-bit value of one memory element (00_scope.md R7). -/
abbrev Half := BitVec 16

/-- `bits(64)`: addresses, `X` registers, `SP` and `pc` (00_scope.md R7, R11). -/
abbrev Word := BitVec 64

/-- An instruction word (30_encoding.md R60). -/
abbrev InstrWord := BitVec 32

end Sys2Proof
end

