-- ==== Sys2Proof/Syntax.lean ====
section
/-! DEFINITION. The instructions of spec/opcode_table.json, and the assembler lines they are written as. -/

namespace Sys2Proof

/-- `<mod>`, the index extend specifier of the four 32-bit-offset classes (30_encoding.md R76). -/
inductive Mod where
  | uxtw
  | sxtw
  deriving DecidableEq, Repr

/-- `<Xn|SP>`: number 31 is the stack pointer, never a register 31 (10_state.md R20, 30_encoding.md R71). -/
inductive Base where
  | x (n : Fin 31)
  | sp
  deriving DecidableEq, Repr

/-- One constructor per row of spec/opcode_table.json. Operands are the fields of 30_encoding.md R61, typed by
their ranges, since R71 excludes no value. -/
inductive Instr where
  /-- 32-bit scaled offset (40 R80). -/
  | ldff1h32Scaled (zt : Fin 32) (pg : Fin 8) (rn : Base) (zm : Fin 32) (mod : Mod)
  /-- 32-bit unpacked scaled offset (40 R81). -/
  | ldff1h32UnpackedScaled (zt : Fin 32) (pg : Fin 8) (rn : Base) (zm : Fin 32) (mod : Mod)
  /-- 32-bit unpacked unscaled offset (40 R82). -/
  | ldff1h32UnpackedUnscaled (zt : Fin 32) (pg : Fin 8) (rn : Base) (zm : Fin 32) (mod : Mod)
  /-- 32-bit unscaled offset (40 R83). -/
  | ldff1h32Unscaled (zt : Fin 32) (pg : Fin 8) (rn : Base) (zm : Fin 32) (mod : Mod)
  /-- 64-bit scaled offset (40 R84). -/
  | ldff1h64Scaled (zt : Fin 32) (pg : Fin 8) (rn : Base) (zm : Fin 32)
  /-- 64-bit unscaled offset (40 R85). -/
  | ldff1h64Unscaled (zt : Fin 32) (pg : Fin 8) (rn : Base) (zm : Fin 32)
  deriving DecidableEq, Repr

/-- Number `t` of the destination vector register (00_scope.md R17). -/
def Instr.zt : Instr → Fin 32
  | .ldff1h32Scaled zt _ _ _ _ => zt
  | .ldff1h32UnpackedScaled zt _ _ _ _ => zt
  | .ldff1h32UnpackedUnscaled zt _ _ _ _ => zt
  | .ldff1h32Unscaled zt _ _ _ _ => zt
  | .ldff1h64Scaled zt _ _ _ => zt
  | .ldff1h64Unscaled zt _ _ _ => zt

/-- Number `g` of the governing predicate register (00_scope.md R17). -/
def Instr.pg : Instr → Fin 8
  | .ldff1h32Scaled _ pg _ _ _ => pg
  | .ldff1h32UnpackedScaled _ pg _ _ _ => pg
  | .ldff1h32UnpackedUnscaled _ pg _ _ _ => pg
  | .ldff1h32Unscaled _ pg _ _ _ => pg
  | .ldff1h64Scaled _ pg _ _ => pg
  | .ldff1h64Unscaled _ pg _ _ => pg

/-- The base register, `X[n]` or `SP` (40 R91). -/
def Instr.rn : Instr → Base
  | .ldff1h32Scaled _ _ rn _ _ => rn
  | .ldff1h32UnpackedScaled _ _ rn _ _ => rn
  | .ldff1h32UnpackedUnscaled _ _ rn _ _ => rn
  | .ldff1h32Unscaled _ _ rn _ _ => rn
  | .ldff1h64Scaled _ _ rn _ => rn
  | .ldff1h64Unscaled _ _ rn _ => rn

/-- Number `m` of the offset vector register (00_scope.md R17). -/
def Instr.zm : Instr → Fin 32
  | .ldff1h32Scaled _ _ _ zm _ => zm
  | .ldff1h32UnpackedScaled _ _ _ zm _ => zm
  | .ldff1h32UnpackedUnscaled _ _ _ zm _ => zm
  | .ldff1h32Unscaled _ _ _ zm _ => zm
  | .ldff1h64Scaled _ _ _ zm => zm
  | .ldff1h64Unscaled _ _ _ zm => zm

/-- `<mod>` where the class has an `xs` field (30_encoding.md R70). -/
def Instr.mod? : Instr → Option Mod
  | .ldff1h32Scaled _ _ _ _ mod => some mod
  | .ldff1h32UnpackedScaled _ _ _ _ mod => some mod
  | .ldff1h32UnpackedUnscaled _ _ _ _ mod => some mod
  | .ldff1h32Unscaled _ _ _ _ mod => some mod
  | .ldff1h64Scaled _ _ _ _ => none
  | .ldff1h64Unscaled _ _ _ _ => none

/-- The element-size suffix of a vector register in a line, `.S` or `.D` (10_state.md R22). -/
inductive Suffix where
  | s
  | d
  deriving DecidableEq, Repr

/-- A base register as a line writes it. -/
inductive AsmBase where
  | x (n : Nat)
  | sp
  deriving DecidableEq, Repr

/-- The extend-or-shift specifier of a line (30_encoding.md R75). -/
inductive Specifier where
  | uxtw
  | sxtw
  | lsl
  deriving DecidableEq, Repr

/-- A line of the shape of 30_encoding.md R75: mnemonic LDFF1H, a one-register list, a `/Z` predicate, and a bracket of
base, offset vector and, where present, a specifier and a shift amount. -/
structure AsmLine where
  zt : Nat
  ztSuffix : Suffix
  pg : Nat
  base : AsmBase
  zm : Nat
  zmSuffix : Suffix
  specifier : Option Specifier
  amount : Option Nat
  deriving DecidableEq, Repr

end Sys2Proof
end

