-- ==== Sys2Proof/WellFormed.lean ====
section
/-! DEFINITION. Which assembler lines are well formed, and the line of each instruction. -/

namespace Sys2Proof

/-- The base names an `X` register or `SP` (30_encoding.md R76). -/
def AsmBase.named : AsmBase → Bool
  | .x n => n ≤ 30
  | .sp => true

/-- The bracket's end is that of one of the six lines of 30_encoding.md R75. -/
def AsmLine.endsAsListed (l : AsmLine) : Bool :=
  match l.ztSuffix, l.specifier, l.amount with
  | _, some .uxtw, none => true
  | _, some .sxtw, none => true
  | _, some .uxtw, some k => k == 1
  | _, some .sxtw, some k => k == 1
  | .d, some .lsl, some k => k == 1
  | .d, none, none => true
  | _, _, _ => false

/-- The register names exist, the suffixes agree, and the line ends as one of the six (30_encoding.md R75, R76). -/
def AsmLine.wellFormed (l : AsmLine) : Bool :=
  decide (l.zt ≤ 31) && decide (l.pg ≤ 7) && l.base.named && decide (l.zm ≤ 31) && (l.ztSuffix == l.zmSuffix) &&
    l.endsAsListed

/-- A base register as a line writes it. -/
def Base.asm : Base → AsmBase
  | .x n => .x n.val
  | .sp => .sp

/-- The specifier of `<mod>` (30_encoding.md R76). -/
def Mod.asm : Mod → Specifier
  | .uxtw => .uxtw
  | .sxtw => .sxtw

/-- The line of an instruction (30_encoding.md R75). -/
def Instr.asm : Instr → AsmLine
  | .ldff1h32Scaled zt pg rn zm mod => ⟨zt.val, .s, pg.val, rn.asm, zm.val, .s, some mod.asm, some 1⟩
  | .ldff1h32UnpackedScaled zt pg rn zm mod => ⟨zt.val, .d, pg.val, rn.asm, zm.val, .d, some mod.asm, some 1⟩
  | .ldff1h32UnpackedUnscaled zt pg rn zm mod => ⟨zt.val, .d, pg.val, rn.asm, zm.val, .d, some mod.asm, none⟩
  | .ldff1h32Unscaled zt pg rn zm mod => ⟨zt.val, .s, pg.val, rn.asm, zm.val, .s, some mod.asm, none⟩
  | .ldff1h64Scaled zt pg rn zm => ⟨zt.val, .d, pg.val, rn.asm, zm.val, .d, some .lsl, some 1⟩
  | .ldff1h64Unscaled zt pg rn zm => ⟨zt.val, .d, pg.val, rn.asm, zm.val, .d, none, none⟩

/-- An instruction is well formed when its line is; the operand types leave no ill-formed one (30_encoding.md R71). -/
def Instr.wellFormed (i : Instr) : Bool := i.asm.wellFormed

end Sys2Proof
end

