-- ==== Sys2Proof/Decode.lean ====
section
/-! DEFINITION. Decoding, total on words and on bytes, the encoder, and the assembler. -/

namespace Sys2Proof

/-! ## Fields of a word (30_encoding.md R61, R70) -/

/-- `UInt` of the 5-bit register field whose lowest bit is `lo`. -/
def regField (w : InstrWord) (lo : Nat) : Fin 32 :=
  ⟨(w.extractLsb' lo 5).toNat, (w.extractLsb' lo 5).isLt⟩

/-- `UInt(Pg)`, bits 12:10. -/
def pgField (w : InstrWord) : Fin 8 :=
  ⟨(w.extractLsb' 10 3).toNat, (w.extractLsb' 10 3).isLt⟩

/-- The base register of number `n`: 31 is `SP` (30_encoding.md R71). -/
def Base.ofNumber (n : Fin 32) : Base :=
  if h : n.val < 31 then .x ⟨n.val, h⟩ else .sp

/-- The `Rn` number of a base register. -/
def Base.number : Base → Fin 32
  | .x n => ⟨n.val, Nat.lt_succ_of_lt n.isLt⟩
  | .sp => 31

/-- `xs`, bit 22: 0 is `UXTW`, 1 is `SXTW` (30_encoding.md R76). -/
def modField (w : InstrWord) : Mod :=
  if w.getLsbD 22 then .sxtw else .uxtw

/-- The `xs` bit of a `<mod>`. -/
def Mod.bit : Mod → InstrWord
  | .uxtw => 0
  | .sxtw => 1

/-! ## The decoder -/

/-- One row of the table of 30_encoding.md R69: `w` belongs to the class when `(w AND mask) == match`. -/
structure EncodingRow where
  mask : InstrWord
  pattern : InstrWord
  build : InstrWord → Instr

/-- Whether the word belongs to the row's class. -/
def EncodingRow.matches (r : EncodingRow) (w : InstrWord) : Bool := w &&& r.mask == r.pattern

/-- The six rows (30_encoding.md R63 to R68). -/
def encodingTable : List EncodingRow :=
  [⟨0xFFA0E000, 0x84A06000, fun w =>
      .ldff1h32Scaled (regField w 0) (pgField w) (.ofNumber (regField w 5)) (regField w 16) (modField w)⟩,
   ⟨0xFFA0E000, 0xC4A06000, fun w =>
      .ldff1h32UnpackedScaled (regField w 0) (pgField w) (.ofNumber (regField w 5)) (regField w 16) (modField w)⟩,
   ⟨0xFFA0E000, 0xC4806000, fun w =>
      .ldff1h32UnpackedUnscaled (regField w 0) (pgField w) (.ofNumber (regField w 5)) (regField w 16) (modField w)⟩,
   ⟨0xFFA0E000, 0x84806000, fun w =>
      .ldff1h32Unscaled (regField w 0) (pgField w) (.ofNumber (regField w 5)) (regField w 16) (modField w)⟩,
   ⟨0xFFE0E000, 0xC4E0E000, fun w =>
      .ldff1h64Scaled (regField w 0) (pgField w) (.ofNumber (regField w 5)) (regField w 16)⟩,
   ⟨0xFFE0E000, 0xC4C0E000, fun w =>
      .ldff1h64Unscaled (regField w 0) (pgField w) (.ofNumber (regField w 5)) (regField w 16)⟩]

/-- Why nothing was decoded. -/
inductive Reject where
  /-- The word matches no row (30_encoding.md R72, `not_in_source`). -/
  | notInSource (w : InstrWord)
  /-- Fewer than four bytes were given. -/
  | truncated
  deriving DecidableEq, Repr

/-- The decoder on words, total (30_encoding.md R72). -/
def decodeWord (w : InstrWord) : Except Reject Instr :=
  match encodingTable.find? (·.matches w) with
  | some r => .ok (r.build w)
  | none => .error (.notInSource w)

/-- The word of four bytes in increasing address order: little-endian, `B3 : B2 : B1 : B0` (20_memory.md R43). -/
def wordOfBytes (b0 b1 b2 b3 : Byte) : InstrWord := b3 ++ b2 ++ b1 ++ b0

/-- The four bytes of a word in increasing address order (20_memory.md R43). -/
def bytesOfWord (w : InstrWord) : List Byte :=
  [w.extractLsb' 0 8, w.extractLsb' 8 8, w.extractLsb' 16 8, w.extractLsb' 24 8]

/-- The decoder on bytes: an instruction is 4 bytes (30_encoding.md R60), and the rest is returned. -/
def decode : List Byte → Except Reject (Instr × List Byte)
  | b0 :: b1 :: b2 :: b3 :: rest =>
    match decodeWord (wordOfBytes b0 b1 b2 b3) with
    | .ok i => .ok (i, rest)
    | .error r => .error r
  | _ => .error .truncated

/-- What the decoder reads from an instruction whose bits, numbered as spec/opcode_table.json numbers them, are `w`. -/
def decodeTableWord (nbits w : Nat) : Option Instr :=
  match decode (bytesOfWord (BitVec.ofNat 32 (w % 2 ^ nbits))) with
  | .ok (i, _) => some i
  | .error _ => none

/-! ## The encoder -/

/-- `match | Zm<<16 | Pg<<10 | Rn<<5 | Zt` (95_test_vectors.md section 2, from 30_encoding.md R61). -/
def fieldWord (pattern : InstrWord) (zt : Fin 32) (pg : Fin 8) (rn : Base) (zm : Fin 32) : InstrWord :=
  pattern ||| BitVec.ofNat 32 zm.val <<< 16 ||| BitVec.ofNat 32 pg.val <<< 10 |||
    BitVec.ofNat 32 rn.number.val <<< 5 ||| BitVec.ofNat 32 zt.val

/-- The word of an instruction (30_encoding.md R63 to R68). -/
def encode : Instr → InstrWord
  | .ldff1h32Scaled zt pg rn zm mod => fieldWord 0x84A06000 zt pg rn zm ||| mod.bit <<< 22
  | .ldff1h32UnpackedScaled zt pg rn zm mod => fieldWord 0xC4A06000 zt pg rn zm ||| mod.bit <<< 22
  | .ldff1h32UnpackedUnscaled zt pg rn zm mod => fieldWord 0xC4806000 zt pg rn zm ||| mod.bit <<< 22
  | .ldff1h32Unscaled zt pg rn zm mod => fieldWord 0x84806000 zt pg rn zm ||| mod.bit <<< 22
  | .ldff1h64Scaled zt pg rn zm => fieldWord 0xC4E0E000 zt pg rn zm
  | .ldff1h64Unscaled zt pg rn zm => fieldWord 0xC4C0E000 zt pg rn zm

/-! ## The assembler (30_encoding.md R75) -/

/-- The `X` register or `SP` a line names. -/
def AsmBase.base? : AsmBase → Option Base
  | .x n => if h : n < 31 then some (.x ⟨n, h⟩) else none
  | .sp => some .sp

/-- The register number below `n` that a line names. -/
def fin? (n k : Nat) : Option (Fin n) := if h : k < n then some ⟨k, h⟩ else none

/-- The instruction a line stands for: the suffix, the specifier and the amount tell the classes apart
(30_encoding.md R75). -/
def assemble (l : AsmLine) : Option Instr :=
  match fin? 32 l.zt, fin? 8 l.pg, l.base.base?, fin? 32 l.zm with
  | some zt, some pg, some rn, some zm =>
    match l.ztSuffix, l.zmSuffix, l.specifier, l.amount with
    | .s, .s, some .uxtw, some 1 => some (.ldff1h32Scaled zt pg rn zm .uxtw)
    | .s, .s, some .sxtw, some 1 => some (.ldff1h32Scaled zt pg rn zm .sxtw)
    | .d, .d, some .uxtw, some 1 => some (.ldff1h32UnpackedScaled zt pg rn zm .uxtw)
    | .d, .d, some .sxtw, some 1 => some (.ldff1h32UnpackedScaled zt pg rn zm .sxtw)
    | .d, .d, some .uxtw, none => some (.ldff1h32UnpackedUnscaled zt pg rn zm .uxtw)
    | .d, .d, some .sxtw, none => some (.ldff1h32UnpackedUnscaled zt pg rn zm .sxtw)
    | .s, .s, some .uxtw, none => some (.ldff1h32Unscaled zt pg rn zm .uxtw)
    | .s, .s, some .sxtw, none => some (.ldff1h32Unscaled zt pg rn zm .sxtw)
    | .d, .d, some .lsl, some 1 => some (.ldff1h64Scaled zt pg rn zm)
    | .d, .d, none, none => some (.ldff1h64Unscaled zt pg rn zm)
    | _, _, _, _ => none
  | _, _, _, _ => none

end Sys2Proof
end

