-- ==== Sys2Proof/Config.lean ====
section
/-! DEFINITION. The free values: what the spec leaves open at each evaluation. -/

namespace Sys2Proof

/-- The choices one execution of an LDFF1H meets (40 R100). An argument of the operation, so that a claim holds for
every value of every one of them (00_scope.md R16, 92 D25). -/
structure Draws where
  /-- `cu_spcheck`: whether SP's alignment is checked when no element is active (40 R91). -/
  cuSpCheck : Bool
  /-- `nf_perform[e]`: whether MemNF performs an access it may perform (20_memory.md R48). -/
  nfPerform : Nat → Bool
  /-- The data MemNF returns with `fault = TRUE` (20_memory.md R48 result (a)), never used by the operation. -/
  nfData : Nat → Half
  /-- `cu_data[e]`: whether an unknown element receives its loaded data (40 R97). -/
  cuData : Nat → Bool
  /-- `cu_zero[e]`: whether an unknown element that did not receive data is zero (40 R97). -/
  cuZero : Nat → Bool
  /-- The value a read of a Device byte returns; the argument is the byte's place in the access (20_memory.md R46). -/
  deviceByte : Nat → Byte

namespace Config

/-! Free values (log entry 10, DESIGN CHOICE of form, safe): constants with no body, applied to the number of the
execution and, where there is one per element, to the element. -/

/-- `ConstrainUnpredictableBool(CHECKSPNONEACTIVE)` of an execution (00_scope.md R16). -/
opaque spCheckDraw : Nat → Bool

/-- Whether the MemNF of an execution and element performs its access (20_memory.md R48, 92 D13). -/
opaque nfPerformDraw : Nat → Nat → Bool

/-- The data of a MemNF that reports a fault (20_memory.md R48, 93 U6). -/
opaque nfDataDraw : Nat → Nat → Half

/-- `ConstrainUnpredictableBool(SVELDNFDATA)` of an execution and element (00_scope.md R16). -/
opaque dataDraw : Nat → Nat → Bool

/-- `ConstrainUnpredictableBool(SVELDNFZERO)` of an execution and element (00_scope.md R16). -/
opaque zeroDraw : Nat → Nat → Bool

/-- The byte a Device read of an execution returns (20_memory.md R46, 93 U12). -/
opaque deviceByteDraw : Nat → Nat → Byte

end Config

/-- The free values of execution number `n`. -/
def Draws.ofExecution (n : Nat) : Draws where
  cuSpCheck := Config.spCheckDraw n
  nfPerform := Config.nfPerformDraw n
  nfData := Config.nfDataDraw n
  cuData := Config.dataDraw n
  cuZero := Config.zeroDraw n
  deviceByte := Config.deviceByteDraw n

end Sys2Proof
end

