-- ==== Sys2Proof/Machine/State.lean ====
section
/-! DEFINITION. The machine's state as plain data, the reasons a step can stop, and the state after reset. -/

namespace Sys2Proof.Machine

/-- What a byte is read for (20_memory.md R46). -/
inductive AccessKind where
  | read
  | fetch
  deriving DecidableEq, Repr

/-- The verdict on an access to one byte; an abort's cause is an opaque label (20_memory.md R46). -/
inductive Verdict where
  | okNormal
  | okDevice
  | abort (cause : String)
  deriving DecidableEq, Repr

/-- `size` bytes from `base` that share a verdict for one kind of access. -/
structure Region where
  base : Nat
  size : Nat
  kind : AccessKind
  verdict : Verdict
  deriving DecidableEq, Repr

/-- What a DataAbort records: `alignment`, or the cause of a verdict (60 R125). -/
inductive Cause where
  | alignment
  | verdict (label : String)
  deriving DecidableEq, Repr

/-- The synchronous exceptions and the info each records (60 R120). -/
inductive Exception where
  | undefined (word : InstrWord)
  | sveAccessTrap
  | streamingModeTrap
  | spAlignmentFault
  | dataAbort (cause : Cause) (addr : Word)
  | instructionAbort (cause : String) (addr : Word)
  | pcAlignment (pc : Word)
  deriving DecidableEq, Repr

/-- How the run stands: going on, ended well (70 R143), or in the terminal trap state (60 R130). -/
inductive RunStatus where
  | running
  | endedWell
  | trapped (x : Exception)
  deriving DecidableEq, Repr

/-- Which primitive made a data read (00_scope.md R14). -/
inductive Primitive where
  /-- `Mem` -/
  | faulting
  /-- `MemNF` -/
  | nonFaulting
  deriving DecidableEq, Repr

/-- One data read of two bytes that was performed (70 R144): for which element, where, by which primitive. -/
structure ReadEvent where
  element : Nat
  addr : Word
  primitive : Primitive
  deriving DecidableEq, Repr

/-- The faults of a step. -/
inductive Fault where
  /-- Raised by `step` alone, in a state whose status is that trap: a trap is terminal and no further step is taken
  (60 R130). Safe. -/
  | trapped (x : Exception)
  /-- Raised by `step` alone, in a state whose run has ended well: the model takes no further step (70 R143). Safe. -/
  | runEnded
  deriving DecidableEq, Repr

/-- The refusals of a step (60 R139). -/
inductive Refusal where
  /-- Raised by an arm of `exec` for an instruction with no meaning yet; no arm does. Safe. -/
  | notModelled (mnemonic : String)
  /-- Raised by `step` for a word that matches no row of the opcode table (30_encoding.md R72). Safe. -/
  | notInSource (w : InstrWord)
  /-- Raised by `Mem` for a first active element at address `2^64 - 1` (20_memory.md R44, R47). Safe. -/
  | addressWrap
  /-- Raised by `fetch` for an instruction byte whose verdict is `ok_device` (20_memory.md R43). Safe. -/
  | fetchFromDevice
  /-- Raised on completion of an instruction at `pc = 2^64 - 4` (10_state.md R29). Safe. -/
  | pcWrap
  /-- Raised when `VL` is not a positive multiple of 64 (00_scope.md R7). Safe. -/
  | badParameter
  deriving DecidableEq, Repr

/-- Why an operation did not return: it raised an exception (00_scope.md R15), or the model refuses (60 R139). -/
inductive Stop where
  | raise (x : Exception)
  | refuse (r : Refusal)
  deriving DecidableEq, Repr

/-- Everything the spec gives the machine. The widths of `z`, `p` and `ffr` are `VL` and `PL = VL DIV 8` at all times
(10_state.md R27), which their types say. -/
structure State where
  /-- `VL` (10_state.md R27). -/
  vl : Nat
  /-- `X[0]` to `X[30]` (10_state.md R20). -/
  x : Vector Word 31
  /-- `SP` (10_state.md R21). -/
  sp : Word
  /-- `Z[0]` to `Z[31]` (10_state.md R22). -/
  z : Vector (BitVec vl) 32
  /-- `P[0]` to `P[15]`; an instruction reaches the first eight (10_state.md R23). -/
  p : Vector (BitVec (vl / 8)) 16
  /-- The first-fault register (10_state.md R24). -/
  ffr : BitVec (vl / 8)
  /-- The address of the instruction (10_state.md R29). -/
  pc : Word
  /-- Memory, in the canonical form of `memWf` (10_state.md R28). -/
  mem : List Host.Cell
  /-- The verdicts: the first region that covers a byte decides (20_memory.md R46). -/
  map : List Region
  /-- `have_sve` (10_state.md R26). -/
  haveSve : Bool
  /-- `sve_enabled` (10_state.md R26). -/
  sveEnabled : Bool
  /-- `streaming`: in Streaming SVE mode (10_state.md R26). -/
  streaming : Bool
  /-- `fa64_enabled` (10_state.md R26). -/
  fa64Enabled : Bool
  /-- `sp_align_check` (10_state.md R26). -/
  spAlignCheck : Bool
  /-- `big_endian_data` (20_memory.md R42). -/
  bigEndianData : Bool
  /-- `align_enforced` (20_memory.md R44). -/
  alignEnforced : Bool
  /-- `code_base` (70 R141). -/
  codeBase : Word
  /-- `code_len`, in words (70 R141). -/
  codeLen : Nat
  /-- How the run stands, with the exception of a trap (60 R130, 70 R143). -/
  status : RunStatus
  /-- The data reads made, oldest first (70 R144). -/
  reads : List ReadEvent
  /-- The model's own: the number of the next execution, which picks its free values (log entry 10). -/
  draws : Nat
  deriving DecidableEq, Repr

/-- The state a run starts from when nothing is loaded. The spec states no reset value (10_state.md R33): the parameters
are the common setting of 95_test_vectors.md section 3, every register is zero, memory lists nothing (DESIGN CHOICE, log
entries 1 to 7; unsafe where a statement rests on one of them). -/
def State.reset : State where
  vl := 128
  x := Vector.replicate 31 0
  sp := 0
  z := Vector.replicate 32 0
  p := Vector.replicate 16 0
  ffr := 0
  pc := 0
  mem := []
  map := []
  haveSve := true
  sveEnabled := true
  streaming := false
  fa64Enabled := false
  spAlignCheck := true
  bigEndianData := false
  alignEnforced := false
  codeBase := 0
  codeLen := 0
  status := .running
  reads := []
  draws := 0

end Sys2Proof.Machine
end

