-- ==== Sys2Proof/Machine/Ops.lean ====
section
/-! DEFINITION. The named operations over memory, registers and the run: reading and writing bytes, verdicts, the two read
primitives, the checks before an instruction, taking an exception, completing an instruction. -/

namespace Sys2Proof.Machine

/-- The outcomes of a step (00_scope.md R19). -/
abbrev Result := Host.Outcome State Fault Refusal

/-! ## Memory cells -/

/-- What an unlisted address reads as (DESIGN CHOICE, log entry 6). -/
def unlistedByte : Byte := 0

/-- The byte at an address of the list. -/
def memGet : List Host.Cell → Nat → Byte
  | [], _ => unlistedByte
  | (k, b) :: m, a => if k = a then b else memGet m a

/-- The list with a byte written, keeping the canonical form. -/
def memPut : List Host.Cell → Nat → Byte → List Host.Cell
  | [], a, v => if v = unlistedByte then [] else [(a, v)]
  | (k, b) :: m, a, v =>
    if a < k then (if v = unlistedByte then (k, b) :: m else (a, v) :: (k, b) :: m)
    else if k = a then (if v = unlistedByte then m else (a, v) :: m)
    else (k, b) :: memPut m a v

/-- Every listed address is above `a`. -/
def memAbove (a : Nat) : List Host.Cell → Bool
  | [] => true
  | (k, _) :: m => decide (a < k) && memAbove a m

/-- The canonical form: addresses of the 64-bit space, strictly rising, no entry equal to what an unlisted address
reads as. -/
def memWf : List Host.Cell → Bool
  | [] => true
  | (k, b) :: m => decide (k < 2 ^ 64) && decide (b ≠ unlistedByte) && memAbove k m && memWf m

/-- `mem(a)` (20_memory.md R46). -/
def State.byteAt (s : State) (a : Word) : Byte := memGet s.mem a.toNat

/-- Bytes placed at consecutive addresses, by the host alone (70 R145): no instruction writes memory. -/
def putBytes : List Host.Cell → Word → List Byte → List Host.Cell
  | m, _, [] => m
  | m, a, b :: bs => putBytes (memPut m a.toNat b) (a + 1) bs

/-! ## Verdicts (20_memory.md R46) -/

/-- Whether the region covers the byte for that kind of access. -/
def Region.covers (r : Region) (a : Word) (k : AccessKind) : Bool :=
  decide (r.base ≤ a.toNat) && decide (a.toNat < r.base + r.size) && (r.kind == k)

/-- The verdict of the first region that covers the byte; a byte no region covers is ordinary memory (DESIGN CHOICE, log
entry 5). -/
def verdictIn : List Region → Word → AccessKind → Verdict
  | [], _, _ => .okNormal
  | r :: rs, a, k => if r.covers a k then r.verdict else verdictIn rs a k

/-- `verdict(a, kind)` (20_memory.md R46). -/
def State.verdictAt (s : State) (a : Word) (k : AccessKind) : Verdict := verdictIn s.map a k

/-- The byte is of Device memory, for a read. -/
def State.isDevice (s : State) (a : Word) : Bool := s.verdictAt a .read == .okDevice

/-! ## The read primitives -/

/-- The byte a read of verdict `ok_normal` or `ok_device` returns; `i` is its place in the access (20_memory.md R46). -/
def State.readByte (s : State) (d : Draws) (a : Word) (i : Nat) : Byte :=
  if s.isDevice a then d.deviceByte i else s.byteAt a

/-- The 16-bit value of two bytes in increasing address order (20_memory.md R42). -/
def State.halfOf (s : State) (b0 b1 : Byte) : Half := if s.bigEndianData then b0 ++ b1 else b1 ++ b0

/-- One of the access's two bytes is of Device memory. -/
def State.touchesDevice (s : State) (addr : Word) : Bool := s.isDevice addr || s.isDevice (addr + 1)

/-- What stops `Mem[addr, 2, accdesc]`, in the order of 20_memory.md R47. -/
def State.memStop (s : State) (addr : Word) : Option Stop :=
  if addr = BitVec.allOnes 64 then some (.refuse .addressWrap)
  else if addr.getLsbD 0 && s.alignEnforced then some (.raise (.dataAbort .alignment addr))
  else
    match s.verdictAt addr .read, s.verdictAt (addr + 1) .read with
    | .abort c, _ => some (.raise (.dataAbort (.verdict c) addr))
    | _, .abort c => some (.raise (.dataAbort (.verdict c) (addr + 1)))
    | _, _ => if addr.getLsbD 0 && s.touchesDevice addr then some (.raise (.dataAbort .alignment addr)) else none

/-- The value `Mem[addr, 2, accdesc]` returns when nothing stops it (20_memory.md R47). -/
def State.memValue (s : State) (d : Draws) (addr : Word) : Half :=
  s.halfOf (s.readByte d addr 0) (s.readByte d (addr + 1) 1)

/-- `Mem[addr, 2, accdesc]`, the faulting read (20_memory.md R47). -/
def State.memFaulting (s : State) (d : Draws) (addr : Word) : Except Stop Half :=
  match s.memStop addr with
  | some st => .error st
  | none => .ok (s.memValue d addr)

/-- MemNF performs its access: nothing would stop `Mem`, no byte is of Device memory, and it chooses to (20_memory.md R48
result (b)). -/
def State.nfPerforms (s : State) (d : Draws) (e : Nat) (addr : Word) : Bool :=
  (s.memStop addr).isNone && !s.touchesDevice addr && d.nfPerform e

/-- `MemNF[addr, 2, accdesc]` of element `e`, the non-faulting read: the data and `fault` (20_memory.md R48). -/
def State.memNonFaulting (s : State) (d : Draws) (e : Nat) (addr : Word) : Half × Bool :=
  if s.nfPerforms d e addr then (s.memValue d addr, false) else (d.nfData e, true)

/-! ## Registers -/

/-- `Z[i]` (00_scope.md R11). -/
def State.zReg (s : State) (i : Fin 32) : BitVec s.vl := s.z[i.val]

/-- `P[g]` (00_scope.md R11); an instruction's `g` is one of the first eight. -/
def State.pReg (s : State) (g : Fin 8) : BitVec (s.vl / 8) := s.p[g.val]

/-- `SP` or `X[n]` (40 R91). -/
def State.baseValue (s : State) : Base → Word
  | .x n => s.x[n.val]
  | .sp => s.sp

/-! ## Checks before the operation -/

/-- `VL` is a positive multiple of 64 (00_scope.md R7). -/
def vlOk (vl : Nat) : Bool := decide (0 < vl) && decide (vl % 64 = 0)

/-- The decode check and `CheckNonStreamingSVEEnabled()`, in order (40 R87). -/
def State.accessCheck (s : State) (w : InstrWord) : Option Exception :=
  if !s.haveSve then some (.undefined w)
  else if !s.sveEnabled then some .sveAccessTrap
  else if s.streaming && !s.fa64Enabled then some .streamingModeTrap
  else none

/-- `CheckSPAlignment()` raises (60 R124). -/
def State.spMisaligned (s : State) : Bool := s.spAlignCheck && (s.sp.extractLsb' 0 4 != 0)

/-! ## Taking an exception, and completing -/

/-- The state with the trap recorded: everything else is as before the instruction, `pc` still at it (60 R130). -/
def State.trap (s : State) (x : Exception) : State := { s with status := .trapped x }

/-- Taking an exception (60 R130). The spec's entry saves nothing, changes no mode and goes to no vector: it records the
exception with its info in a terminal state. There is no return from it (60 R132). -/
def takeException (x : Exception) (s : State) : Result := .next (s.trap x)

/-- The outcome of an operation that did not return (00_scope.md R15, 60 R139). -/
def stopWith (st : Stop) (s : State) : Result :=
  match st with
  | .raise x => takeException x s
  | .refuse r => .refused r

/-- The writes of a completed instruction, made together: all of `Z[t]`, FFR and `pc` (40 R98), with the reads it made
added to the history (70 R144) and the next execution's number. -/
def State.finish (s : State) (t : Fin 32) (result : BitVec s.vl) (ffr : BitVec (s.vl / 8)) (reads : List ReadEvent) :
    State :=
  { s with
    z := s.z.set t.val result
    ffr := ffr
    pc := s.pc + 4
    reads := s.reads ++ reads
    draws := s.draws + 1 }

/-- `2^64 - 4`, the address after which `pc` would wrap (10_state.md R29). -/
def lastPc : Word := BitVec.ofNat 64 (2 ^ 64 - 4)

/-- Completing an instruction; at `pc = 2^64 - 4` the model refuses instead (10_state.md R29). -/
def complete (s : State) (t : Fin 32) (result : BitVec s.vl) (ffr : BitVec (s.vl / 8)) (reads : List ReadEvent) :
    Result :=
  if s.pc = lastPc then .refused .pcWrap else .next (s.finish t result ffr reads)

/-- The good end of a run: a completed step has reached the address after the last word (70 R143). -/
def State.atEnd (s : State) : Bool :=
  (s.status == .running) && decide (s.pc.toNat = s.codeBase.toNat + 4 * s.codeLen)

/-- The state with the run ended well. -/
def State.endRun (s : State) : State := { s with status := .endedWell }

/-- The end-of-run test a step makes on the state it reached (70 R143). -/
def endCheck : Result → Result
  | .next s => .next (if s.atEnd then s.endRun else s)
  | .fault f => .fault f
  | .refused r => .refused r

end Sys2Proof.Machine
end

