-- ==== Sys2Proof/Machine/Operands.lean ====
section
/-! DEFINITION. The operand forms: elements of vectors and predicates, the constants of the six classes, integers of offset
elements, and the address of an element. -/

namespace Sys2Proof.Machine

/-- `Elem[v, e, size]` (00_scope.md R10). -/
def elem {n : Nat} (v : BitVec n) (e size : Nat) : BitVec size := v.extractLsb' (e * size) size

/-- `Elem[v, e, size] = a`: those bits and no others (00_scope.md R10). -/
def setElem {n : Nat} (v : BitVec n) (e size : Nat) (a : BitVec size) : BitVec n :=
  (v &&& ~~~((BitVec.allOnes size).setWidth n <<< (e * size))) ||| (a.setWidth n <<< (e * size))

/-- `Int(v, u)`: unsigned when `u` is TRUE, else signed (00_scope.md R9). -/
def intOf {n : Nat} (v : BitVec n) (isUnsigned : Bool) : Int := if isUnsigned then (v.toNat : Int) else v.toInt

/-- `Extend(v, size, u)`: with zeros when `u` is TRUE, else with copies of the top bit (00_scope.md R9). -/
def extend {n : Nat} (v : BitVec n) (size : Nat) (isUnsigned : Bool) : BitVec size :=
  if isUnsigned then v.setWidth size else v.signExtend size

/-- The decode constants of a class (40 R80 to R85). `msize` is 16 in all six. -/
structure ClassConsts where
  esize : Nat
  offsSize : Nat
  isUnsigned : Bool
  offsUnsigned : Bool
  scale : Nat
  deriving DecidableEq, Repr

/-- `offs_unsigned = xs == '0'` (40 R80). -/
def Mod.offsUnsigned : Mod → Bool
  | .uxtw => true
  | .sxtw => false

/-- The decode constants of an instruction's class, one row each of the table after 40 R85. -/
def constsOf : Instr → ClassConsts
  | .ldff1h32Scaled _ _ _ _ mod => ⟨32, 32, true, Mod.offsUnsigned mod, 1⟩
  | .ldff1h32UnpackedScaled _ _ _ _ mod => ⟨64, 32, true, Mod.offsUnsigned mod, 1⟩
  | .ldff1h32UnpackedUnscaled _ _ _ _ mod => ⟨64, 32, true, Mod.offsUnsigned mod, 0⟩
  | .ldff1h32Unscaled _ _ _ _ mod => ⟨32, 32, true, Mod.offsUnsigned mod, 0⟩
  | .ldff1h64Scaled _ _ _ _ => ⟨64, 64, true, true, 1⟩
  | .ldff1h64Unscaled _ _ _ _ => ⟨64, 64, true, true, 0⟩

/-- `elements = VL DIV esize` (40 R89). -/
def elementCount (vl : Nat) (c : ClassConsts) : Nat := vl / c.esize

/-- `ActivePredicateElement(mask, e, esize)`: the lowest bit of the element's group (00_scope.md R12). -/
def activeElement {pl : Nat} (mask : BitVec pl) (e esize : Nat) : Bool := mask.getLsbD (e * (esize / 8))

/-- `AnyActiveElement(mask, esize)` over `count` elements (00_scope.md R12). -/
def anyActive {pl : Nat} (mask : BitVec pl) (count esize : Nat) : Bool :=
  (List.range count).any fun e => activeElement mask e esize

/-- `off`, an unbounded integer: the low `offs_size` bits of the offset element (40 R92). -/
def offsetOf {n : Nat} (c : ClassConsts) (offset : BitVec n) (e : Nat) : Int :=
  intOf ((elem offset e c.esize).extractLsb' 0 c.offsSize) c.offsUnsigned

/-- `(UInt(base) + off * 2^scale) mod 2^64` (40 R92). -/
def elementAddress {n : Nat} (c : ClassConsts) (base : Word) (offset : BitVec n) (e : Nat) : Word :=
  BitVec.ofInt 64 (base.toNat + offsetOf c offset e * 2 ^ c.scale)

end Sys2Proof.Machine
end

