-- ==== Sys2Proof/Machine/Flags.lean ====
section
/-! DEFINITION. The only status an instruction leaves behind, the first-fault register (10_state.md R24). There are no
condition flags (10_state.md R25). -/

namespace Sys2Proof.Machine

/-- `ElemFFR[e, esize]`, read (00_scope.md R13). -/
def ffrElem {pl : Nat} (ffr : BitVec pl) (e esize : Nat) : Bool := ffr.getLsbD (e * (esize / 8))

/-- `ElemFFR[e, esize] = '0'`: all bits of the element's group and no others (00_scope.md R13). -/
def clearFfrElem {pl : Nat} (ffr : BitVec pl) (e esize : Nat) : BitVec pl := setElem ffr e (esize / 8) 0

/-- FFR after an element, `faulted` being the sticky flag with this element's fault in it (40 R96). -/
def ffrAfter {pl : Nat} (ffr : BitVec pl) (e esize : Nat) (faulted : Bool) : BitVec pl :=
  if faulted then clearFfrElem ffr e esize else ffr

end Sys2Proof.Machine
end

