-- ==== Sys2Proof/Machine/Ldff1h.lean ====
section
/-! DEFINITION. LDFF1H (scalar plus vector): the shared operation of 40 R86 to R100 and the meaning of each of its six
encodings. -/

namespace Sys2Proof.Machine

/-- The locals an execution reads before its loop (40 R89 to R91). -/
structure Gather (vl : Nat) where
  consts : ClassConsts
  mask : BitVec (vl / 8)
  base : Word
  offset : BitVec vl
  orig : BitVec vl

/-- The locals that change in the loop (40 R90, 10_state.md R30), with the reads made so far. -/
structure Loop (vl : Nat) where
  first : Bool
  faulted : Bool
  unknown : Bool
  ffr : BitVec (vl / 8)
  result : BitVec vl
  reads : List ReadEvent

/-- What the access part of the loop's body leaves for an element: `data`, `fault`, and the read it made, if any. -/
structure Access where
  data : Half
  fault : Bool
  reads : List ReadEvent
  deriving DecidableEq, Repr

/-- The access of element `e`: `Mem` for the first active element (40 R93), `MemNF` for a later one (40 R94), none for an
inactive one (40 R95). -/
def accessElement {vl : Nat} (s : State) (d : Draws) (q : Gather vl) (e : Nat) (first : Bool) : Except Stop Access :=
  if activeElement q.mask e q.consts.esize then
    let addr := elementAddress q.consts q.base q.offset e
    if first then
      match s.memFaulting d addr with
      | .error st => .error st
      | .ok v => .ok ⟨v, false, [⟨e, addr, .faulting⟩]⟩
    else
      let r := s.memNonFaulting d e addr
      .ok ⟨r.1, r.2, if r.2 then [] else [⟨e, addr, .nonFaulting⟩]⟩
  else .ok ⟨0, false, []⟩

/-- The result of element `e`: its data while no FFR element has read 0, else data, zero or the old value by the draws
(40 R97). -/
def elementResult {vl : Nat} (d : Draws) (q : Gather vl) (e : Nat) (unknown : Bool) (a : Access) :
    BitVec q.consts.esize :=
  if !unknown then extend a.data q.consts.esize q.consts.isUnsigned
  else if !a.fault && d.cuData e then extend a.data q.consts.esize q.consts.isUnsigned
  else if d.cuZero e then 0
  else elem q.orig e q.consts.esize

/-- The rest of the loop's body, after the access (40 R96, R97). -/
def afterAccess {vl : Nat} (d : Draws) (q : Gather vl) (e : Nat) (l : Loop vl) (a : Access) : Loop vl :=
  let faulted := l.faulted || a.fault
  let ffr := ffrAfter l.ffr e q.consts.esize faulted
  let unknown := l.unknown || !ffrElem ffr e q.consts.esize
  { first := l.first && !activeElement q.mask e q.consts.esize
    faulted := faulted
    unknown := unknown
    ffr := ffr
    result := setElem l.result e q.consts.esize (elementResult d q e unknown a)
    reads := l.reads ++ a.reads }

/-- The loop's body for element `e` (40 R99). -/
def elementStep {vl : Nat} (s : State) (d : Draws) (q : Gather vl) (e : Nat) (l : Loop vl) : Except Stop (Loop vl) :=
  match accessElement s d q e l.first with
  | .error st => .error st
  | .ok a => .ok (afterAccess d q e l a)

/-- The loop over `k` elements from `e` upward (40 R88). -/
def elementLoop {vl : Nat} (s : State) (d : Draws) (q : Gather vl) : Nat → Nat → Loop vl → Except Stop (Loop vl)
  | 0, _, l => .ok l
  | k + 1, e, l =>
    match elementStep s d q e l with
    | .error st => .error st
    | .ok l' => elementLoop s d q k (e + 1) l'

/-- The loop's locals as the declarations leave them (40 R90). `result` has no value there: the loop assigns every element
of it (40 R98). -/
def Loop.start {vl : Nat} (ffr : BitVec (vl / 8)) : Loop vl where
  first := true
  faulted := false
  unknown := false
  ffr := ffr
  result := 0
  reads := []

/-- The locals an instruction's execution reads from the state (40 R90, R91). With no active element the base and the
offsets are not read: no rule uses them then. -/
def State.gather (s : State) (i : Instr) : Gather s.vl where
  consts := constsOf i
  mask := s.pReg i.pg
  base := s.baseValue i.rn
  offset := s.zReg i.zm
  orig := s.zReg i.zt

/-- Whether some element of the instruction is active (40 R91). -/
def State.someActive (s : State) (i : Instr) : Bool :=
  anyActive (s.pReg i.pg) (elementCount s.vl (constsOf i)) (constsOf i).esize

/-- The stack-pointer check raises: always made when some element is active, at the implementation's choice when none is
(40 R91). -/
def State.spCheckFails (s : State) (d : Draws) (i : Instr) : Bool :=
  (i.rn == .sp) && s.spMisaligned && (s.someActive i || d.cuSpCheck)

/-- One execution of a decoded LDFF1H with explicit draws (40 R100, in the order of 40 R86). -/
def ldff1h (i : Instr) (d : Draws) (s : State) : Result :=
  if !vlOk s.vl then .refused .badParameter
  else
    match s.accessCheck (encode i) with
    | some x => takeException x s
    | none =>
      if s.spCheckFails d i then takeException .spAlignmentFault s
      else
        match elementLoop s d (s.gather i) (elementCount s.vl (constsOf i)) 0 (Loop.start s.ffr) with
        | .error st => stopWith st s
        | .ok l => complete s i.zt l.result l.ffr l.reads

/-! ## The six meanings -/

/-- LDFF1H, 32-bit scaled offset (40 R80). -/
def execLdff1h32Scaled (zt : Fin 32) (pg : Fin 8) (rn : Base) (zm : Fin 32) (mod : Mod) (s : State) : Result :=
  ldff1h (.ldff1h32Scaled zt pg rn zm mod) (Draws.ofExecution s.draws) s

/-- LDFF1H, 32-bit unpacked scaled offset (40 R81). -/
def execLdff1h32UnpackedScaled (zt : Fin 32) (pg : Fin 8) (rn : Base) (zm : Fin 32) (mod : Mod) (s : State) : Result :=
  ldff1h (.ldff1h32UnpackedScaled zt pg rn zm mod) (Draws.ofExecution s.draws) s

/-- LDFF1H, 32-bit unpacked unscaled offset (40 R82). -/
def execLdff1h32UnpackedUnscaled (zt : Fin 32) (pg : Fin 8) (rn : Base) (zm : Fin 32) (mod : Mod) (s : State) :
    Result :=
  ldff1h (.ldff1h32UnpackedUnscaled zt pg rn zm mod) (Draws.ofExecution s.draws) s

/-- LDFF1H, 32-bit unscaled offset (40 R83). -/
def execLdff1h32Unscaled (zt : Fin 32) (pg : Fin 8) (rn : Base) (zm : Fin 32) (mod : Mod) (s : State) : Result :=
  ldff1h (.ldff1h32Unscaled zt pg rn zm mod) (Draws.ofExecution s.draws) s

/-- LDFF1H, 64-bit scaled offset (40 R84). -/
def execLdff1h64Scaled (zt : Fin 32) (pg : Fin 8) (rn : Base) (zm : Fin 32) (s : State) : Result :=
  ldff1h (.ldff1h64Scaled zt pg rn zm) (Draws.ofExecution s.draws) s

/-- LDFF1H, 64-bit unscaled offset (40 R85). -/
def execLdff1h64Unscaled (zt : Fin 32) (pg : Fin 8) (rn : Base) (zm : Fin 32) (s : State) : Result :=
  ldff1h (.ldff1h64Unscaled zt pg rn zm) (Draws.ofExecution s.draws) s

end Sys2Proof.Machine
end

