-- ==== Sys2Proof/Machine/Dispatch.lean ====
section
/-! DEFINITION. The dispatch: one arm per constructor of Instr. -/

namespace Sys2Proof.Machine

def exec (i : Instr) (s : State) : Host.Outcome State Fault Refusal :=
  match i with
  | .ldff1h32Scaled zt pg rn zm mod => Sys2Proof.Machine.execLdff1h32Scaled zt pg rn zm mod s
  | .ldff1h32UnpackedScaled zt pg rn zm mod => Sys2Proof.Machine.execLdff1h32UnpackedScaled zt pg rn zm mod s
  | .ldff1h32UnpackedUnscaled zt pg rn zm mod => Sys2Proof.Machine.execLdff1h32UnpackedUnscaled zt pg rn zm mod s
  | .ldff1h32Unscaled zt pg rn zm mod => Sys2Proof.Machine.execLdff1h32Unscaled zt pg rn zm mod s
  | .ldff1h64Scaled zt pg rn zm => Sys2Proof.Machine.execLdff1h64Scaled zt pg rn zm s
  | .ldff1h64Unscaled zt pg rn zm => Sys2Proof.Machine.execLdff1h64Unscaled zt pg rn zm s

end Sys2Proof.Machine
end

