-- ==== Sys2Proof/Machine/Fetch.lean ====
section
/-! DEFINITION. Instruction fetch, and how the host places a word or a program. -/

namespace Sys2Proof.Machine

/-- The addresses of the four bytes of the instruction at `pc` (20_memory.md R43). -/
def fetchAddresses (pc : Word) : List Word := [pc, pc + 1, pc + 2, pc + 3]

/-- The exception of the lowest byte whose verdict is an abort (60 R126). -/
def State.fetchAbort (s : State) : Option Exception :=
  (fetchAddresses s.pc).findSome? fun a =>
    match s.verdictAt a .fetch with
    | .abort c => some (.instructionAbort c a)
    | _ => none

/-- Some byte of the instruction is of Device memory, for a fetch (20_memory.md R43). -/
def State.fetchDevice (s : State) : Bool := (fetchAddresses s.pc).any fun a => s.verdictAt a .fetch == .okDevice

/-- The word at `pc`, little-endian (20_memory.md R43). -/
def State.wordAtPc (s : State) : InstrWord :=
  wordOfBytes (s.byteAt s.pc) (s.byteAt (s.pc + 1)) (s.byteAt (s.pc + 2)) (s.byteAt (s.pc + 3))

/-- `pc` is a multiple of 4 (10_state.md R29). -/
def State.pcAligned (s : State) : Bool := s.pc.extractLsb' 0 2 == 0

/-- Fetch: the alignment of `pc` first, then the lowest aborting byte, then a Device byte (60 R126, 20_memory.md R43). -/
def fetch (s : State) : Except Stop InstrWord :=
  if !s.pcAligned then .error (.raise (.pcAlignment s.pc))
  else
    match s.fetchAbort with
    | some x => .error (.raise x)
    | none => if s.fetchDevice then .error (.refuse .fetchFromDevice) else .ok s.wordAtPc

/-- The four bytes at `pc` may be fetched. -/
def State.fetchable (s : State) : Bool := (fetchAddresses s.pc).all fun a => s.verdictAt a .fetch == .okNormal

/-- The state with a word placed where the next fetch reads it, the run going on: `pc` loses its low two bits and its
bytes are given verdict `ok_normal` for a fetch, where they are not so already (log entry 26). -/
def State.placeWord (s : State) (w : InstrWord) : State :=
  let pc := s.pc &&& ~~~3#64
  let map := if State.fetchable { s with pc := pc } then s.map else ⟨pc.toNat, 4, .fetch, .okNormal⟩ :: s.map
  { s with
    pc := pc
    mem := putBytes s.mem pc (bytesOfWord w)
    map := map
    status := .running }

/-- The bytes of a program, in increasing address order (70 R141). -/
def programBytes : List InstrWord → List Byte
  | [] => []
  | w :: ws => bytesOfWord w ++ programBytes ws

/-- The launch of a program on a state that gives everything else: its words at `code_base`, fetchable, `pc` at the first,
nothing in flight and no fault recorded (70 R141). A program whose words run past `2^64` is launched too: its bytes go on
at address 0, while its fetchable region ends at the top (DESIGN CHOICE, log entry 31). -/
def State.launch (s : State) (base : Word) (program : List InstrWord) : State :=
  { s with
    pc := base
    mem := putBytes s.mem base (programBytes program)
    map := ⟨base.toNat, 4 * program.length, .fetch, .okNormal⟩ :: s.map
    codeBase := base
    codeLen := program.length
    status := .running
    reads := [] }

end Sys2Proof.Machine
end

