-- ==== Sys2Proof/Machine/Step.lean ====
section
/-! DEFINITION. One step: fetch, decode, execute, and the end-of-run test (00_scope.md R19). -/

namespace Sys2Proof.Machine

/-- One step. A run that has trapped or ended takes none (60 R130, 70 R143); an inadmissible `VL` is refused first
(00_scope.md R7). -/
def step (s : State) : Host.Outcome State Fault Refusal :=
  match s.status with
  | .trapped x => .fault (.trapped x)
  | .endedWell => .fault .runEnded
  | .running =>
    if !vlOk s.vl then .refused .badParameter
    else
      match fetch s with
      | .error st => stopWith st s
      | .ok w =>
        match decodeWord w with
        | .ok i => endCheck (exec i s)
        | .error _ => .refused (.notInSource w)

/-- The instruction whose bits, numbered as spec/opcode_table.json numbers them, are `w`, placed where `step` fetches its
next instruction. It stands for the host's loading of a program (log entries 7 and 26). -/
def State.withFetchWord (s : State) (nbits w : Nat) : State := s.placeWord (BitVec.ofNat 32 (w % 2 ^ nbits))

end Sys2Proof.Machine
end

