-- ==== Sys2Proof/Safety.lean ====
section
/-! DEFINITION. The terms claims are stated in: when an instruction may execute, which elements it loads from where, what a
recorded trap says of its state, the machine's invariant, and how a run stands. -/

namespace Sys2Proof.Machine

/-! ## Elements of an instruction in a state -/

/-- How many elements the instruction has in the state (40 R89). -/
def State.elements (s : State) (i : Instr) : Nat := elementCount s.vl (constsOf i)

/-- Element `e` exists and is active (00_scope.md R12). -/
def State.active (s : State) (i : Instr) (e : Nat) : Bool :=
  decide (e < s.elements i) && activeElement (s.pReg i.pg) e (constsOf i).esize

/-- Element `f` is the first active one (40 R93). -/
def State.isFirst (s : State) (i : Instr) (f : Nat) : Bool :=
  s.active i f && (List.range f).all fun e => !s.active i e

/-- The address of element `e` (40 R92). -/
def State.addressOf (s : State) (i : Instr) (e : Nat) : Word :=
  elementAddress (constsOf i) (s.baseValue i.rn) (s.zReg i.zm) e

/-- The halfword of ordinary memory at an address, in the data byte order (20_memory.md R42). -/
def State.halfAt (s : State) (a : Word) : Half := s.halfOf (s.byteAt a) (s.byteAt (a + 1))

/-- The governing FFR bits of the instruction's elements are all 1 (40 R102). -/
def State.ffrAllOnes (s : State) (i : Instr) : Bool :=
  (List.range (s.elements i)).all fun e => ffrElem s.ffr e (constsOf i).esize

/-- Under the draws, the access of element `e` is a later active one that reports a fault: it would stop, it touches Device
memory, or MemNF declines it (20_memory.md R48 result (a), 40 R94). -/
def State.reportsFault (s : State) (d : Draws) (i : Instr) (e : Nat) : Bool :=
  s.active i e && !s.isFirst i e &&
    !((s.memStop (s.addressOf i e)).isNone && !s.touchesDevice (s.addressOf i e) && d.nfPerform e)

/-- FFR, read with the instruction's element size, holds a 0 at or below element `e`: the element is CONSTRAINED
UNPREDICTABLE (40 R97, R103). -/
def State.ffrFalseUpTo (s : State) (i : Instr) (e : Nat) : Bool :=
  (List.range (e + 1)).any fun j => !ffrElem s.ffr j (constsOf i).esize

/-! ## When an instruction executes -/

/-- The three enables of 40 R87. -/
def State.sveUsable (s : State) : Bool := s.haveSve && s.sveEnabled && (!s.streaming || s.fa64Enabled)

/-- With `SP` as base, `SP` passes its alignment check (60 R124). -/
def State.spUsable (s : State) (i : Instr) : Bool := !(i.rn == .sp) || !s.spMisaligned

/-- `pc` is not the one address from which a completion is refused (10_state.md R29). -/
def State.pcAdvances (s : State) : Bool := !(s.pc == lastPc)

/-- The read of the first active element, if there is one, would return (20_memory.md R47). -/
def State.firstReadable (s : State) (i : Instr) : Bool :=
  (List.range (s.elements i)).all fun e => !s.isFirst i e || (s.memStop (s.addressOf i e)).isNone

/-- The model admits `VL` and nothing before the element loop raises (40 R86 steps 1, 2 and 4). -/
def State.entersLoop (s : State) (i : Instr) : Bool := vlOk s.vl && s.sveUsable && s.spUsable i

/-- Everything 70 R142 asks for the instruction to complete, on the state and the operands alone. -/
def State.readyFor (s : State) (i : Instr) : Bool := s.entersLoop i && s.pcAdvances && s.firstReadable i

/-- The stack-pointer check before the loop raises nothing under the draws: `SP` is not the base, or passes its check, or no
element is active and the check is not drawn (40 R91). -/
def State.spPasses (s : State) (d : Draws) (i : Instr) : Prop :=
  i.rn = .sp → s.spMisaligned = true → (∀ e, s.active i e = false) ∧ d.cuSpCheck = false

/-- The instruction completes under the draws and leaves `t`: under any draws by the shared operation, or by its own meaning
when they are the free values of this execution. A trap leaves `pc`, so it is no completion. -/
def State.completesAs (s : State) (i : Instr) (d : Draws) (t : State) : Prop :=
  (ldff1h i d s = .next t ∨ d = Draws.ofExecution s.draws ∧ exec i s = .next t) ∧ t.pc = s.pc + 4

/-! ## Traps and runs -/

/-- What the state must be for the exception to be the one recorded in it (60 R120 to R126): a trapped state is the state
before the instruction. -/
def State.justifies (s : State) : Exception → Prop
  | .undefined w => s.haveSve = false ∧ w = s.wordAtPc
  | .sveAccessTrap => s.haveSve = true ∧ s.sveEnabled = false
  | .streamingModeTrap =>
    s.haveSve = true ∧ s.sveEnabled = true ∧ s.streaming = true ∧ s.fa64Enabled = false
  | .spAlignmentFault => s.sveUsable = true ∧ s.spAlignCheck = true ∧ s.sp.toNat % 16 ≠ 0
  | .dataAbort .alignment a => a.toNat % 2 = 1 ∧ (s.alignEnforced = true ∨ s.touchesDevice a = true)
  | .dataAbort (.verdict c) a => s.sveUsable = true ∧ s.verdictAt a .read = .abort c
  | .instructionAbort c a =>
    s.pcAligned = true ∧ a ∈ fetchAddresses s.pc ∧ s.verdictAt a .fetch = .abort c
  | .pcAlignment p => p = s.pc ∧ s.pc.toNat % 4 ≠ 0

/-- What the run's status says of the state: a trap is justified (60 R130), and a good end is at the address after the last
word (70 R143). -/
def State.statusHolds (s : State) : Prop :=
  match s.status with
  | .running => True
  | .endedWell => s.pc.toNat = s.codeBase.toNat + 4 * s.codeLen
  | .trapped x => s.justifies x

/-- The machine's invariant: an admissible `VL`, memory in canonical form, and a status that the state bears out. -/
structure State.Inv (s : State) : Prop where
  vl : vlOk s.vl = true
  mem : memWf s.mem = true
  status : s.statusHolds

/-- A function on the next state of an outcome; a fault or a refusal stays. -/
def mapNext (f : State → State) : Result → Result
  | .next s => .next (f s)
  | .fault r => .fault r
  | .refused r => .refused r

/-- What no step changes (10_state.md R20, R21, R23, R26 to R28): every register but `Z`, FFR and `pc`, every parameter, and
every byte of memory. Predicates are compared as numbers, since their type carries the state's `VL`. -/
structure State.SameConstants (s t : State) : Prop where
  vl : t.vl = s.vl
  x : t.x = s.x
  sp : t.sp = s.sp
  p : ∀ g : Fin 16, (t.p[g.val]).toNat = (s.p[g.val]).toNat
  bytes : ∀ a : Word, t.byteAt a = s.byteAt a
  map : t.map = s.map
  haveSve : t.haveSve = s.haveSve
  sveEnabled : t.sveEnabled = s.sveEnabled
  streaming : t.streaming = s.streaming
  fa64Enabled : t.fa64Enabled = s.fa64Enabled
  spAlignCheck : t.spAlignCheck = s.spAlignCheck
  bigEndianData : t.bigEndianData = s.bigEndianData
  alignEnforced : t.alignEnforced = s.alignEnforced
  codeBase : t.codeBase = s.codeBase
  codeLen : t.codeLen = s.codeLen

end Sys2Proof.Machine
end

