-- ==== Sys2Proof/Certificates/Slice0/Obligations.lean ====
section
/-! DEFINITION. The statements for the provers. A docstring names the sentences of spec/ a statement formalises; where it
rests on a choice of the model or of the spec, it names the log entry or the decision. -/

open Sys2Proof Sys2Proof.Machine

/-! ## Encoding -/

/-- Encoding drops no bit: every instruction, with every operand, is read back (30_encoding.md sections 1 to 3). -/
def Obligations.DecodeOfEncodeIsTheInstruction : Prop :=
  ∀ i : Instr, decodeWord (encode i) = .ok i

/-- Every word that decodes is the word of what it decodes to (30_encoding.md sections 1 to 3). -/
def Obligations.EncodeOfDecodeIsTheWord : Prop :=
  ∀ (w : InstrWord) (i : Instr), decodeWord w = .ok i → encode i = w

/-- Membership in each class by its match and mask, with the operands in their fields (R63 to R68). -/
def Obligations.ClassByMaskAndMatch : Prop :=
  ∀ w : InstrWord,
    (w &&& 0xFFA0E000 = 0x84A06000 ↔ decodeWord w =
      .ok (.ldff1h32Scaled (regField w 0) (pgField w) (.ofNumber (regField w 5)) (regField w 16) (modField w))) ∧
    (w &&& 0xFFA0E000 = 0xC4A06000 ↔ decodeWord w =
      .ok (.ldff1h32UnpackedScaled (regField w 0) (pgField w) (.ofNumber (regField w 5)) (regField w 16) (modField w))) ∧
    (w &&& 0xFFA0E000 = 0xC4806000 ↔ decodeWord w =
      .ok (.ldff1h32UnpackedUnscaled (regField w 0) (pgField w) (.ofNumber (regField w 5)) (regField w 16)
        (modField w))) ∧
    (w &&& 0xFFA0E000 = 0x84806000 ↔ decodeWord w =
      .ok (.ldff1h32Unscaled (regField w 0) (pgField w) (.ofNumber (regField w 5)) (regField w 16) (modField w))) ∧
    (w &&& 0xFFE0E000 = 0xC4E0E000 ↔ decodeWord w =
      .ok (.ldff1h64Scaled (regField w 0) (pgField w) (.ofNumber (regField w 5)) (regField w 16))) ∧
    (w &&& 0xFFE0E000 = 0xC4C0E000 ↔ decodeWord w =
      .ok (.ldff1h64Unscaled (regField w 0) (pgField w) (.ofNumber (regField w 5)) (regField w 16)))

/-- `t`, `n`, `m` and `g` are the unsigned values of their fields in every class (R17). -/
def Obligations.OperandNumbersAreFields : Prop :=
  ∀ (w : InstrWord) (i : Instr), decodeWord w = .ok i →
    i.zt.val = w.toNat % 32 ∧ i.rn.number.val = w.toNat / 32 % 32 ∧ i.pg.val = w.toNat / 1024 % 8 ∧
      i.zm.val = w.toNat / 65536 % 32 ∧ (i.rn = .sp ↔ w.toNat / 32 % 32 = 31)

/-- An instruction is four bytes, no more and no fewer (R60). -/
def Obligations.InstructionIsFourBytes : Prop :=
  (∀ (bs rest : List Byte) (i : Instr), decode bs = .ok (i, rest) →
    ∃ b0 b1 b2 b3, bs = b0 :: b1 :: b2 :: b3 :: rest) ∧
  ∀ bs : List Byte, decode bs = .error .truncated ↔ bs.length < 4

/-- Sample words of the six classes, and neighbours that are in none (95_test_vectors.md T2, T7, T10, T16, T20, T22, T25,
T30, T34). -/
def Obligations.SampleWordsDecode : Prop :=
  decodeWord 0x84FF7FFF = .ok (.ldff1h32Scaled 31 7 .sp 31 .sxtw) ∧
  decodeWord 0xC4F177E3 = .ok (.ldff1h32UnpackedScaled 3 5 .sp 17 .sxtw) ∧
  decodeWord 0xC4DF7FFF = .ok (.ldff1h32UnpackedUnscaled 31 7 .sp 31 .sxtw) ∧
  decodeWord 0x84806955 = .ok (.ldff1h32Unscaled 21 2 (.x 10) 0 .uxtw) ∧
  decodeWord 0xC4E0E955 = .ok (.ldff1h64Scaled 21 2 (.x 10) 0) ∧
  decodeWord 0xC4DFFFFF = .ok (.ldff1h64Unscaled 31 7 .sp 31) ∧
  decodeWord 0x84A04000 = .error (.notInSource 0x84A04000) ∧
  decodeWord 0xC4A0E000 = .error (.notInSource 0xC4A0E000) ∧
  decodeWord 0xD503201F = .error (.notInSource 0xD503201F)

/-- The well-formed assembler lines are exactly those of the instructions: the line of each instruction is well formed, and
each well-formed line is assembled to the instruction whose line it is (30_encoding.md section 5). That the two suffixes
must agree is the model's choice (log entry 29). -/
def Obligations.LinesAreThoseOfInstructions : Prop :=
  (∀ i : Instr, i.wellFormed = true) ∧
  ∀ l : AsmLine,
    (l.wellFormed = true → ∃ i, assemble l = some i ∧ i.asm = l) ∧ (l.wellFormed = false → assemble l = none)

/-! ## The step -/

/-- A step at a fetchable word of an instruction is that instruction's execution, then the end-of-run test. -/
def Obligations.StepRunsTheDecodedInstruction : Prop :=
  ∀ (s : State) (i : Instr), s.status = .running → vlOk s.vl = true → s.pcAligned = true → s.fetchable = true →
    decode [s.byteAt s.pc, s.byteAt (s.pc + 1), s.byteAt (s.pc + 2), s.byteAt (s.pc + 3)] = .ok (i, []) →
    step s =
      match exec i s with
      | .next t =>
        .next (if t.status = .running ∧ t.pc.toNat = t.codeBase.toNat + 4 * t.codeLen then
          { t with status := .endedWell } else t)
      | .fault f => .fault f
      | .refused r => .refused r

/-- What stops a fetch, in order: a misaligned `pc`, the lowest aborting byte, a Device byte, a word in no class
(60_exceptions.md section 2, the model's two fetch exceptions being decisions D8 and D12; log entries 14, 22, 25). -/
def Obligations.FetchStopsInOrder : Prop :=
  ∀ s : State, s.status = .running → vlOk s.vl = true →
    (s.pc.toNat % 4 ≠ 0 → step s = .next (s.trap (.pcAlignment s.pc))) ∧
    (s.pc.toNat % 4 = 0 →
      (∀ (k : Nat) (c : String), k < 4 → s.verdictAt (s.pc + BitVec.ofNat 64 k) .fetch = .abort c →
        (∀ j < k, ∀ c' : String, s.verdictAt (s.pc + BitVec.ofNat 64 j) .fetch ≠ .abort c') →
        step s = .next (s.trap (.instructionAbort c (s.pc + BitVec.ofNat 64 k)))) ∧
      ((∀ j < 4, ∀ c : String, s.verdictAt (s.pc + BitVec.ofNat 64 j) .fetch ≠ .abort c) →
        ((∃ j < 4, s.verdictAt (s.pc + BitVec.ofNat 64 j) .fetch = .okDevice) → step s = .refused .fetchFromDevice) ∧
        ((∀ j < 4, s.verdictAt (s.pc + BitVec.ofNat 64 j) .fetch ≠ .okDevice) →
          ∀ r, decodeWord s.wordAtPc = .error r → step s = .refused (.notInSource s.wordAtPc))))

/-- A run that has trapped or ended well takes no further step (decisions D17, D23; log entries 8, 9). -/
def Obligations.HaltedRunTakesNoStep : Prop :=
  ∀ s : State, (∀ x, s.status = .trapped x → step s = .fault (.trapped x)) ∧
    (s.status = .endedWell → step s = .fault .runEnded)

/-- A vector length that is not a positive multiple of 64 is refused before anything else (00_scope.md section 3; log
entry 12). -/
def Obligations.BadVectorLengthIsRefused : Prop :=
  ∀ s : State, ¬ (0 < s.vl ∧ s.vl % 64 = 0) →
    (s.status = .running → step s = .refused .badParameter) ∧ ∀ i, exec i s = .refused .badParameter

/-- The instruction placed by `withFetchWord` is the one the next step runs (log entry 26). -/
def Obligations.WithFetchWordRunsTheWord : Prop :=
  ∀ (s : State) (w : Nat) (i : Instr), vlOk s.vl = true → memWf s.mem = true → w < 2 ^ 32 →
    decodeWord (BitVec.ofNat 32 w) = .ok i →
    step (s.withFetchWord 32 w) = endCheck (exec i (s.withFetchWord 32 w))

/-- From the reset state, where the model's own reset values stand (log entries 1 to 7), any instruction placed at `pc` runs
as the first one and completes. -/
def Obligations.FreshMachineRunsAnyInstruction : Prop :=
  ∀ i : Instr, ∃ t, step (State.reset.withFetchWord 32 (encode i).toNat) = .next t ∧ t.pc = 4

/-- Each word of a launched program is what a fetch at its address reads (70_reset_and_hazards.md section 1). -/
def Obligations.LaunchedProgramIsFetched : Prop :=
  ∀ (s : State) (base : Word) (program : List InstrWord), memWf s.mem = true → base.toNat % 4 = 0 →
    base.toNat + 4 * program.length ≤ 2 ^ 64 →
    ∀ (j : Nat) (w : InstrWord), program[j]? = some w →
      fetch { s.launch base program with pc := base + BitVec.ofNat 64 (4 * j) } = .ok w

/-- A step ends the run well exactly when it completes at the address after the last word (decision D23, log entry 9). -/
def Obligations.RunEndsAfterTheLastWord : Prop :=
  ∀ s t : State, step s = .next t →
    (t.status = .endedWell ↔ t.pc = s.pc + 4 ∧ t.pc.toNat = s.codeBase.toNat + 4 * s.codeLen)

/-- A program of `code_len` words ends well after exactly `code_len` steps or not at all: it ends well at no other count, and
at that count it has ended well unless it has trapped (70_reset_and_hazards.md section 1, decision D23). -/
def Obligations.RunTakesCodeLenSteps : Prop :=
  ∀ (s t : State) (k : Nat), s.status = .running → s.pc = s.codeBase → Host.Core.run Sys2Proof.core k s = .next t →
    (t.status = .endedWell → k = s.codeLen) ∧
    (k = s.codeLen → 0 < k → (∀ x, t.status ≠ .trapped x) → t.status = .endedWell)

/-! ## Invariants and whole-machine rules -/

/-- Every step keeps the invariant: an admissible `VL`, memory in canonical form, a recorded trap justified by the state, and
a good end at the right address. -/
def Obligations.StepKeepsTheInvariant : Prop :=
  ∀ s t : State, s.Inv → step s = .next t → t.Inv

/-- The reset state, whose values are the model's choice (log entries 1 to 7), meets the invariant and starts a run. -/
def Obligations.ResetMeetsTheInvariant : Prop :=
  State.reset.Inv ∧ State.reset.status = .running ∧ State.reset.pc = State.reset.codeBase

/-- `pc` stays a multiple of 4 (10_state.md section 4; decision D8). -/
def Obligations.PcStaysAligned : Prop :=
  ∀ s t : State, s.pc.toNat % 4 = 0 → step s = .next t → t.pc.toNat % 4 = 0

/-- No step changes an X register, SP, a predicate, a parameter or a byte of memory (10_state.md sections 1, 3, 4 and 6). -/
def Obligations.StepKeepsTheConstants : Prop :=
  ∀ s t : State, step s = .next t → s.SameConstants t

/-- Over a run of any length FFR bits only ever go from 1 to 0 (10_state.md section 2, 70_reset_and_hazards.md
section 2), and what no step changes stays. -/
def Obligations.FfrBitsNeverComeBack : Prop :=
  ∀ (k : Nat) (s t : State), Host.Core.run Sys2Proof.core k s = .next t →
    s.SameConstants t ∧ ∀ j, t.ffr.getLsbD j = true → s.ffr.getLsbD j = true

/-! ## Checks and traps -/

/-- The enables, in order, before anything is read (40 section 3; the two traps of the call are decision D5; the trap's form
is log entry 8). -/
def Obligations.EnableChecksTrapInOrder : Prop :=
  ∀ (i : Instr) (s : State), vlOk s.vl = true →
    (s.haveSve = false → exec i s = .next (s.trap (.undefined (encode i)))) ∧
    (s.haveSve = true → s.sveEnabled = false → exec i s = .next (s.trap .sveAccessTrap)) ∧
    (s.haveSve = true → s.sveEnabled = true → s.streaming = true → s.fa64Enabled = false →
      exec i s = .next (s.trap .streamingModeTrap))

/-- With SP as base, checking on and SP no multiple of 16, an instruction with an active element traps (60_exceptions.md
section 1; the check's body is decision D6). -/
def Obligations.MisalignedSpTraps : Prop :=
  ∀ (i : Instr) (s : State) (e : Nat), vlOk s.vl = true → s.sveUsable = true → i.rn = .sp → s.spAlignCheck = true →
    s.sp.toNat % 16 ≠ 0 → s.active i e = true → exec i s = .next (s.trap .spAlignmentFault)

/-- With no active element the check of a misaligned SP is made or not, as the draw says (40 section 3, 93 U2). -/
def Obligations.SpCheckIsDrawnWithNoActiveElement : Prop :=
  ∀ (i : Instr) (d : Draws) (s : State), vlOk s.vl = true → s.sveUsable = true → i.rn = .sp → s.spMisaligned = true →
    (∀ e, s.active i e = false) → s.pcAdvances = true →
    (d.cuSpCheck = true → ldff1h i d s = .next (s.trap .spAlignmentFault)) ∧
    (d.cuSpCheck = false → ∃ t, ldff1h i d s = .next t ∧ t.pc = s.pc + 4 ∧ t.status = s.status)

/-- What the first active element's access raises, in order (20_memory.md section 3; decisions D11, D12). -/
def Obligations.FirstElementAbortsInOrder : Prop :=
  ∀ (i : Instr) (s : State) (f : Nat), s.entersLoop i = true → s.isFirst i f = true →
    let a := s.addressOf i f
    (a = BitVec.allOnes 64 → exec i s = .refused .addressWrap) ∧
    (a ≠ BitVec.allOnes 64 →
      (a.toNat % 2 = 1 → s.alignEnforced = true → exec i s = .next (s.trap (.dataAbort .alignment a))) ∧
      (¬ (a.toNat % 2 = 1 ∧ s.alignEnforced = true) →
        (∀ c, s.verdictAt a .read = .abort c → exec i s = .next (s.trap (.dataAbort (.verdict c) a))) ∧
        ((∀ c, s.verdictAt a .read ≠ .abort c) →
          (∀ c, s.verdictAt (a + 1) .read = .abort c → exec i s = .next (s.trap (.dataAbort (.verdict c) (a + 1)))) ∧
          ((∀ c, s.verdictAt (a + 1) .read ≠ .abort c) → a.toNat % 2 = 1 →
            s.verdictAt a .read = .okDevice ∨ s.verdictAt (a + 1) .read = .okDevice →
            exec i s = .next (s.trap (.dataAbort .alignment a))))))

/-- Every outcome of an execution: it completes, or it takes one of the exceptions an instruction can raise with the state
otherwise as before it, or it is refused for one of three reasons; it never faults (40 section 3, 60_exceptions.md
sections 4 and 6). That an exception is a next state is log entry 8; that the refusal unwritten_register cannot occur is the
model's choice that every register holds a value (log entry 2). -/
def Obligations.OutcomesOfAnExecution : Prop :=
  ∀ (i : Instr) (s : State),
    (∃ t, exec i s = .next t ∧ t.pc = s.pc + 4 ∧ t.status = s.status) ∨
    (∃ x, exec i s = .next { s with status := .trapped x } ∧
      (x = .undefined (encode i) ∨ x = .sveAccessTrap ∨ x = .streamingModeTrap ∨ x = .spAlignmentFault ∨
        ∃ c a, x = .dataAbort c a)) ∨
    exec i s = .refused .badParameter ∨ exec i s = .refused .addressWrap ∨ exec i s = .refused .pcWrap

/-- A completion at `pc = 2^64 - 4` is refused, also one with a misaligned SP as base where no element is active and the check
is not drawn (10_state.md section 4, 40 section 3; the refusal is decision D8). -/
def Obligations.CompletionAtTheTopIsRefused : Prop :=
  ∀ (i : Instr) (d : Draws) (s : State), vlOk s.vl = true → s.sveUsable = true → s.spPasses d i →
    s.firstReadable i = true → s.pc.toNat = 2 ^ 64 - 4 →
    ldff1h i d s = .refused .pcWrap ∧ (d = Draws.ofExecution s.draws → exec i s = .refused .pcWrap)

/-! ## Completion and frame -/

/-- An instruction that meets the requirements of 70_reset_and_hazards.md R142 on state and operands completes, and changes
nothing but its destination, FFR and `pc`, and the model's history and execution number. It speaks of every constructor:
ldff1h32Scaled, ldff1h32UnpackedScaled, ldff1h32UnpackedUnscaled, ldff1h32Unscaled, ldff1h64Scaled, ldff1h64Unscaled. -/
def Obligations.ReadyInstructionCompletes : Prop :=
  ∀ (i : Instr) (s : State), s.readyFor i = true →
    ∃ (v : BitVec s.vl) (f : BitVec (s.vl / 8)) (rs : List ReadEvent),
      exec i s = .next
        { s with
          z := s.z.set i.zt.val v
          ffr := f
          pc := s.pc + 4
          reads := s.reads ++ rs
          draws := s.draws + 1 }

/-- The frame of all six instructions, whatever the next state: every X register, SP, every predicate, every parameter and
every byte of memory; every vector register but the destination; no FFR bit is set; the history only grows. -/
def Obligations.FrameOfTheGatherLoads : Prop :=
  ∀ (i : Instr) (s t : State), exec i s = .next t →
    t.vl = s.vl ∧ t.x = s.x ∧ t.sp = s.sp ∧ (∀ g : Fin 16, (t.p[g.val]).toNat = (s.p[g.val]).toNat) ∧
    (∀ r : Fin 32, r ≠ i.zt → (t.zReg r).toNat = (s.zReg r).toNat) ∧
    (∀ j, t.ffr.getLsbD j = true → s.ffr.getLsbD j = true) ∧
    (∀ a : Word, t.byteAt a = s.byteAt a) ∧ t.map = s.map ∧
    t.haveSve = s.haveSve ∧ t.sveEnabled = s.sveEnabled ∧ t.streaming = s.streaming ∧ t.fa64Enabled = s.fa64Enabled ∧
    t.spAlignCheck = s.spAlignCheck ∧ t.bigEndianData = s.bigEndianData ∧ t.alignEnforced = s.alignEnforced ∧
    t.codeBase = s.codeBase ∧ t.codeLen = s.codeLen ∧ ∃ rs, t.reads = s.reads ++ rs

/-! ## The six classes: completion and the value of every definite element

For each class: when the instruction is ready it completes, and every element below the first FFR element that is 0 after it
holds the halfword at the class's address zero-extended, or 0 where inactive (R80 to R85 with R103 (2)). The value of a
Device read is a free value and is left out. -/

/-- 32-bit scaled offset: `base + 2 * off`, `off` the 32-bit offset element (40 R80). -/
def Obligations.Loads32Scaled : Prop :=
  ∀ (zt : Fin 32) (pg : Fin 8) (rn : Base) (zm : Fin 32) (mod : Mod) (s : State),
    s.readyFor (.ldff1h32Scaled zt pg rn zm mod) = true →
    ∃ t, exec (.ldff1h32Scaled zt pg rn zm mod) s = .next t ∧ t.pc = s.pc + 4 ∧
      ∀ e < s.vl / 32, (∀ j ≤ e, t.ffr.getLsbD (4 * j) = true) →
        let index := (s.zReg zm).extractLsb' (32 * e) 32
        let off : Int := match mod with
          | .uxtw => index.toNat
          | .sxtw => index.toInt
        let a : Word := BitVec.ofInt 64 ((s.baseValue rn).toNat + 2 * off)
        ((s.pReg pg).getLsbD (4 * e) = true → s.touchesDevice a = false →
          (t.zReg zt).extractLsb' (32 * e) 32 = (s.halfAt a).setWidth 32) ∧
        ((s.pReg pg).getLsbD (4 * e) = false → (t.zReg zt).extractLsb' (32 * e) 32 = 0)

/-- 32-bit unpacked scaled offset: `base + 2 * off`, `off` the low 32 bits of the 64-bit offset element (40 R81). -/
def Obligations.Loads32UnpackedScaled : Prop :=
  ∀ (zt : Fin 32) (pg : Fin 8) (rn : Base) (zm : Fin 32) (mod : Mod) (s : State),
    s.readyFor (.ldff1h32UnpackedScaled zt pg rn zm mod) = true →
    ∃ t, exec (.ldff1h32UnpackedScaled zt pg rn zm mod) s = .next t ∧ t.pc = s.pc + 4 ∧
      ∀ e < s.vl / 64, (∀ j ≤ e, t.ffr.getLsbD (8 * j) = true) →
        let index := (s.zReg zm).extractLsb' (64 * e) 32
        let off : Int := match mod with
          | .uxtw => index.toNat
          | .sxtw => index.toInt
        let a : Word := BitVec.ofInt 64 ((s.baseValue rn).toNat + 2 * off)
        ((s.pReg pg).getLsbD (8 * e) = true → s.touchesDevice a = false →
          (t.zReg zt).extractLsb' (64 * e) 64 = (s.halfAt a).setWidth 64) ∧
        ((s.pReg pg).getLsbD (8 * e) = false → (t.zReg zt).extractLsb' (64 * e) 64 = 0)

/-- 32-bit unpacked unscaled offset: `base + off`, `off` the low 32 bits of the 64-bit offset element (40 R82). -/
def Obligations.Loads32UnpackedUnscaled : Prop :=
  ∀ (zt : Fin 32) (pg : Fin 8) (rn : Base) (zm : Fin 32) (mod : Mod) (s : State),
    s.readyFor (.ldff1h32UnpackedUnscaled zt pg rn zm mod) = true →
    ∃ t, exec (.ldff1h32UnpackedUnscaled zt pg rn zm mod) s = .next t ∧ t.pc = s.pc + 4 ∧
      ∀ e < s.vl / 64, (∀ j ≤ e, t.ffr.getLsbD (8 * j) = true) →
        let index := (s.zReg zm).extractLsb' (64 * e) 32
        let off : Int := match mod with
          | .uxtw => index.toNat
          | .sxtw => index.toInt
        let a : Word := BitVec.ofInt 64 ((s.baseValue rn).toNat + off)
        ((s.pReg pg).getLsbD (8 * e) = true → s.touchesDevice a = false →
          (t.zReg zt).extractLsb' (64 * e) 64 = (s.halfAt a).setWidth 64) ∧
        ((s.pReg pg).getLsbD (8 * e) = false → (t.zReg zt).extractLsb' (64 * e) 64 = 0)

/-- 32-bit unscaled offset: `base + off`, `off` the 32-bit offset element (40 R83). -/
def Obligations.Loads32Unscaled : Prop :=
  ∀ (zt : Fin 32) (pg : Fin 8) (rn : Base) (zm : Fin 32) (mod : Mod) (s : State),
    s.readyFor (.ldff1h32Unscaled zt pg rn zm mod) = true →
    ∃ t, exec (.ldff1h32Unscaled zt pg rn zm mod) s = .next t ∧ t.pc = s.pc + 4 ∧
      ∀ e < s.vl / 32, (∀ j ≤ e, t.ffr.getLsbD (4 * j) = true) →
        let index := (s.zReg zm).extractLsb' (32 * e) 32
        let off : Int := match mod with
          | .uxtw => index.toNat
          | .sxtw => index.toInt
        let a : Word := BitVec.ofInt 64 ((s.baseValue rn).toNat + off)
        ((s.pReg pg).getLsbD (4 * e) = true → s.touchesDevice a = false →
          (t.zReg zt).extractLsb' (32 * e) 32 = (s.halfAt a).setWidth 32) ∧
        ((s.pReg pg).getLsbD (4 * e) = false → (t.zReg zt).extractLsb' (32 * e) 32 = 0)

/-- 64-bit scaled offset: `(base + 2 * off) mod 2^64`, `off` the whole offset element (40 R84). -/
def Obligations.Loads64Scaled : Prop :=
  ∀ (zt : Fin 32) (pg : Fin 8) (rn : Base) (zm : Fin 32) (s : State),
    s.readyFor (.ldff1h64Scaled zt pg rn zm) = true →
    ∃ t, exec (.ldff1h64Scaled zt pg rn zm) s = .next t ∧ t.pc = s.pc + 4 ∧
      ∀ e < s.vl / 64, (∀ j ≤ e, t.ffr.getLsbD (8 * j) = true) →
        let a : Word := s.baseValue rn + 2 * (s.zReg zm).extractLsb' (64 * e) 64
        ((s.pReg pg).getLsbD (8 * e) = true → s.touchesDevice a = false →
          (t.zReg zt).extractLsb' (64 * e) 64 = (s.halfAt a).setWidth 64) ∧
        ((s.pReg pg).getLsbD (8 * e) = false → (t.zReg zt).extractLsb' (64 * e) 64 = 0)

/-- 64-bit unscaled offset: `(base + off) mod 2^64`, `off` the whole offset element (40 R85). -/
def Obligations.Loads64Unscaled : Prop :=
  ∀ (zt : Fin 32) (pg : Fin 8) (rn : Base) (zm : Fin 32) (s : State),
    s.readyFor (.ldff1h64Unscaled zt pg rn zm) = true →
    ∃ t, exec (.ldff1h64Unscaled zt pg rn zm) s = .next t ∧ t.pc = s.pc + 4 ∧
      ∀ e < s.vl / 64, (∀ j ≤ e, t.ffr.getLsbD (8 * j) = true) →
        let a : Word := s.baseValue rn + (s.zReg zm).extractLsb' (64 * e) 64
        ((s.pReg pg).getLsbD (8 * e) = true → s.touchesDevice a = false →
          (t.zReg zt).extractLsb' (64 * e) 64 = (s.halfAt a).setWidth 64) ∧
        ((s.pReg pg).getLsbD (8 * e) = false → (t.zReg zt).extractLsb' (64 * e) 64 = 0)

/-! ## First-fault behaviour, under every draw -/

/-- FFR after a completed instruction is FFR before with the elements from the first reported fault upward cleared, all their
bits, and nothing else; with no reported fault it is not written. Element 0 is never cleared (40 section 3, section 6,
R103 (1); the layout of FFR is decision D26, what reports a fault decisions D13 and D30). -/
def Obligations.FfrLosesASuffix : Prop :=
  ∀ (i : Instr) (d : Draws) (s t : State), s.completesAs i d t →
    ∃ k, 1 ≤ k ∧ k ≤ s.elements i ∧ (∀ e < k, s.reportsFault d i e = false) ∧
      (k < s.elements i → s.reportsFault d i k = true) ∧
      ∀ j < s.vl / 8, t.ffr.getLsbD j = (s.ffr.getLsbD j && decide (j < k * ((constsOf i).esize / 8)))

/-- Below the first FFR-false element everything is exactly loaded (40 section 6, R103 (2)). -/
def Obligations.DefiniteElementsAreLoaded : Prop :=
  ∀ (i : Instr) (s t : State) (e : Nat), exec i s = .next t → t.pc = s.pc + 4 → e < s.elements i →
    t.ffrFalseUpTo i e = false →
    elem (t.zReg i.zt) e (constsOf i).esize =
      if s.active i e then
        (s.memValue (Draws.ofExecution s.draws) (s.addressOf i e)).setWidth (constsOf i).esize
      else 0

/-- At and above it an element is the data of its access, where that reported no fault and the draw gives it (0 for an inactive
element); else zero where the other draw says so; else its old value (40 section 3, section 6, R103 (3)). The data arm needs
the access performed: an active element that reports no fault is one that nothing stops, and a later one is also away from
Device memory and performed by the draw (decisions D13 and D30). -/
def Obligations.UnknownElementsAreOldZeroOrData : Prop :=
  ∀ (i : Instr) (d : Draws) (s t : State) (e : Nat), s.completesAs i d t → e < s.elements i →
    t.ffrFalseUpTo i e = true →
    elem (t.zReg i.zt) e (constsOf i).esize =
      (if s.reportsFault d i e = false ∧ d.cuData e = true then
        if s.active i e then (s.memValue d (s.addressOf i e)).setWidth (constsOf i).esize else 0
      else if d.cuZero e then 0
      else elem (s.zReg i.zt) e (constsOf i).esize) ∧
    (s.active i e = true → s.reportsFault d i e = false →
      s.memStop (s.addressOf i e) = none ∧
        (s.isFirst i e = false → s.touchesDevice (s.addressOf i e) = false ∧ d.nfPerform e = true))

/-- The deterministic case: with FFR all ones, and nothing in the way of any later active element's read, which the draw
performs, every active element is loaded, every inactive one is 0, FFR is not written, and each active element is read once
(40 R102, R104). It is stated of every draw, and of the instruction's own meaning under the free values of its execution. -/
def Obligations.PerformedReadsAreExact : Prop :=
  ∀ (i : Instr) (d : Draws) (s : State), s.readyFor i = true → s.ffrAllOnes i = true →
    (∀ e, s.active i e = true → s.isFirst i e = false →
      s.memStop (s.addressOf i e) = none ∧ s.touchesDevice (s.addressOf i e) = false ∧ d.nfPerform e = true) →
    ∃ v : BitVec s.vl,
      (∀ e < s.elements i, elem v e (constsOf i).esize =
        if s.active i e then (s.memValue d (s.addressOf i e)).setWidth (constsOf i).esize else 0) ∧
      let t : State :=
        { s with
          z := s.z.set i.zt.val v
          pc := s.pc + 4
          reads := s.reads ++ ((List.range (s.elements i)).filter (s.active i)).map fun e =>
            ⟨e, s.addressOf i e, if s.isFirst i e then .faulting else .nonFaulting⟩
          draws := s.draws + 1 }
      ldff1h i d s = .next t ∧ (d = Draws.ofExecution s.draws → exec i s = .next t)

/-- Forward progress: with FFR 1 up to the first active element, that element is loaded (40 section 6, R103 (4)). -/
def Obligations.FirstActiveElementIsLoaded : Prop :=
  ∀ (i : Instr) (s t : State) (f : Nat), exec i s = .next t → t.pc = s.pc + 4 → s.isFirst i f = true →
    s.ffrFalseUpTo i f = false →
    t.ffrFalseUpTo i f = false ∧ s.memStop (s.addressOf i f) = none ∧
      elem (t.zReg i.zt) f (constsOf i).esize =
        (s.memValue (Draws.ofExecution s.draws) (s.addressOf i f)).setWidth (constsOf i).esize

/-- A later active element whose access would stop, or is to Device memory, raises nothing: the instruction completes with
FFR cleared from that element upward, and makes no read for it (60_exceptions.md section 1, R127; Device is decision
D30). -/
def Obligations.LaterFaultsAreSuppressed : Prop :=
  ∀ (i : Instr) (s : State) (e : Nat), s.readyFor i = true → s.active i e = true → s.isFirst i e = false →
    (s.memStop (s.addressOf i e) ≠ none ∨ s.touchesDevice (s.addressOf i e) = true) →
    ∃ t rs, exec i s = .next t ∧ t.pc = s.pc + 4 ∧ t.status = s.status ∧
      (∀ j, e * ((constsOf i).esize / 8) ≤ j → t.ffr.getLsbD j = false) ∧
      t.reads = s.reads ++ rs ∧ ∀ r ∈ rs, r.element ≠ e

/-- No active element and FFR all ones: the destination becomes zero and nothing else happens (40 R101 (a)). -/
def Obligations.NoActiveElementIsExact : Prop :=
  ∀ (i : Instr) (s : State), s.entersLoop i = true → s.pcAdvances = true → (∀ e, s.active i e = false) →
    s.ffrAllOnes i = true →
    exec i s = .next
      { s with
        z := s.z.set i.zt.val 0
        pc := s.pc + 4
        draws := s.draws + 1 }

/-- One active element, FFR all ones, ordinary memory: the element is loaded, the others are zero, FFR is not written, and
exactly one read is made (40 R101 (j)). -/
def Obligations.SingleActiveElementIsExact : Prop :=
  ∀ (i : Instr) (s : State) (f : Nat), s.readyFor i = true → s.isFirst i f = true →
    (∀ e, e ≠ f → s.active i e = false) → s.ffrAllOnes i = true → s.touchesDevice (s.addressOf i f) = false →
    exec i s = .next
      { s with
        z := s.z.set i.zt.val
          ((s.halfAt (s.addressOf i f)).setWidth s.vl <<< (f * (constsOf i).esize))
        pc := s.pc + 4
        reads := s.reads ++ [⟨f, s.addressOf i f, .faulting⟩]
        draws := s.draws + 1 }

/-- The data reads of a completed instruction: at most one for each active element, in increasing element order, each at that
element's address, the first active element's made and by `Mem`, the later ones by `MemNF`; with no active element none
(40 section 6, 20_memory.md section 1). -/
def Obligations.ReadsAreOfActiveElements : Prop :=
  ∀ (i : Instr) (s t : State), exec i s = .next t → t.pc = s.pc + 4 →
    ∃ rs, t.reads = s.reads ++ rs ∧
      (rs.map ReadEvent.element).Pairwise (· < ·) ∧
      (∀ r ∈ rs, s.active i r.element = true ∧ r.addr = s.addressOf i r.element ∧
        (r.primitive = .faulting ↔ s.isFirst i r.element = true)) ∧
      (∀ f, s.isFirst i f = true → rs.head? = some ⟨f, s.addressOf i f, .faulting⟩) ∧
      ((∀ e, s.active i e = false) → rs = [])

/-- An inactive element makes no access, cannot stop, and has `data = 0`, `fault = FALSE`, whatever memory and the draws
(R95). -/
def Obligations.InactiveElementMakesNoAccess : Prop :=
  ∀ (vl : Nat) (s : State) (d : Draws) (q : Gather vl) (e : Nat) (first : Bool),
    activeElement q.mask e q.consts.esize = false → accessElement s d q e first = .ok ⟨0, false, []⟩

/-! ## What does not matter -/

/-- The data MemNF returns with a fault is never used (20_memory.md section 3, 93 U6). -/
def Obligations.SuppressedDataIsNeverUsed : Prop :=
  ∀ (i : Instr) (s : State) (d : Draws) (data : Nat → Half), ldff1h i { d with nfData := data } s = ldff1h i d s

/-- An X register is read only as the base and when some element is active. SP is read only as the base, and then, with no
element active, only by its alignment check (10_state.md section 6). -/
def Obligations.UnreadScalarRegistersDoNotMatter : Prop :=
  (∀ (i : Instr) (s : State) (n : Fin 31) (v : Word), (i.rn = .x n → ∀ e, s.active i e = false) →
    exec i { s with x := s.x.set n.val v } = mapNext (fun t => { t with x := t.x.set n.val v }) (exec i s)) ∧
  ∀ (i : Instr) (s : State) (v : Word),
    (i.rn = .sp → (∀ e, s.active i e = false) ∧ { s with sp := v }.spMisaligned = s.spMisaligned) →
    exec i { s with sp := v } = mapNext (fun t => { t with sp := v }) (exec i s)

/-- A vector register that is neither the destination nor the offsets, or any other than the destination when no element is
active, is not read (10_state.md section 6). -/
def Obligations.UnreadVectorRegistersDoNotMatter : Prop :=
  ∀ (i : Instr) (s : State) (r : Fin 32) (v : Nat), r ≠ i.zt → (r = i.zm → ∀ e, s.active i e = false) →
    exec i { s with z := s.z.set r.val (BitVec.ofNat _ v) } =
      mapNext (fun t => { t with z := t.z.set r.val (BitVec.ofNat _ v) }) (exec i s)

/-- Of the predicates only the governing bits of the governing register are used (00_scope.md R12, decision G5 of the
layout). -/
def Obligations.OnlyGoverningPredicateBitsMatter : Prop :=
  ∀ (i : Instr) (s : State) (g : Fin 16) (v : Nat),
    (g.val = i.pg.val → ∀ e < s.elements i,
      activeElement (BitVec.ofNat (s.vl / 8) v) e (constsOf i).esize = s.active i e) →
    exec i { s with p := s.p.set g.val (BitVec.ofNat _ v) } =
      mapNext (fun t => { t with p := t.p.set g.val (BitVec.ofNat _ v) }) (exec i s)

/-- A byte of memory that no active element's access covers is not read (40 section 6). -/
def Obligations.UnaddressedMemoryDoesNotMatter : Prop :=
  ∀ (i : Instr) (s : State) (a : Nat) (v : Byte),
    (∀ e, s.active i e = true → a ≠ (s.addressOf i e).toNat ∧ a ≠ (s.addressOf i e + 1).toNat) →
    exec i { s with mem := memPut s.mem a v } = mapNext (fun t => { t with mem := memPut t.mem a v }) (exec i s)

/-! ## Addresses and byte order -/

/-- A 64-bit offset taken signed gives the same address; in the unpacked classes the upper half of an offset element is
ignored (40 section 3; decision D15 of the wrap). -/
def Obligations.OffsetReadingsAgree : Prop :=
  (∀ (i : Instr) (n e : Nat) (base : Word) (offset : BitVec n), (constsOf i).offsSize = 64 →
    elementAddress { constsOf i with offsUnsigned := false } base offset e =
      elementAddress (constsOf i) base offset e) ∧
  ∀ (i : Instr) (n e : Nat) (base : Word) (offset offset' : BitVec n), (constsOf i).offsSize = 32 →
    (∀ j < 32, offset.getLsbD (e * (constsOf i).esize + j) = offset'.getLsbD (e * (constsOf i).esize + j)) →
    elementAddress (constsOf i) base offset e = elementAddress (constsOf i) base offset' e

/-- The value `Mem` returns from ordinary memory, in the data byte order (20_memory.md section 1; decision D10). -/
def Obligations.DataByteOrder : Prop :=
  ∀ (s : State) (d : Draws) (a : Word), s.memStop a = none → s.touchesDevice a = false →
    s.memFaulting d a = .ok
      (if s.bigEndianData then s.byteAt a ++ s.byteAt (a + 1) else s.byteAt (a + 1) ++ s.byteAt a)
end

