-- ==== Sys2Proof/Laws/Access.lean ====
section
/-! SUPPORT. Everything the two read primitives and the access of one element can do. -/

namespace Sys2Proof.Machine

/-- `Mem` returns exactly when nothing stops it (20_memory.md R47). -/
theorem memFaulting_eq_ok {s : State} {d : Draws} {a : Word} {v : Half} :
    s.memFaulting d a = .ok v ↔ s.memStop a = none ∧ v = s.memValue d a := by
  unfold State.memFaulting
  split
  · next h => simp [h]
  · next h => simp [h, eq_comm]

theorem memFaulting_eq_error {s : State} {d : Draws} {a : Word} {st : Stop} :
    s.memFaulting d a = .error st ↔ s.memStop a = some st := by
  unfold State.memFaulting
  split
  · next h => simp [h]
  · next h => simp [h]

/-- What stops `Mem` is a data abort or the refusal of a wrapping access (20_memory.md R47). -/
theorem memStop_cases {s : State} {a : Word} {st : Stop} (h : s.memStop a = some st) :
    st = .refuse .addressWrap ∨ ∃ c b, st = .raise (.dataAbort c b) := by
  unfold State.memStop at h
  split at h
  · left
    simpa using h.symm
  · right
    split at h
    · exact ⟨_, _, by simpa using h.symm⟩
    · split at h
      · exact ⟨_, _, by simpa using h.symm⟩
      · exact ⟨_, _, by simpa using h.symm⟩
      · split at h
        · exact ⟨_, _, by simpa using h.symm⟩
        · simp at h

/-- A read that performs touches no Device memory and nothing would stop it (20_memory.md R48 result (b)). -/
theorem nfPerforms_iff {s : State} {d : Draws} {e : Nat} {a : Word} :
    s.nfPerforms d e a = true ↔ s.memStop a = none ∧ s.touchesDevice a = false ∧ d.nfPerform e = true := by
  simp [State.nfPerforms, Bool.and_eq_true, and_assoc]

/-- Away from Device memory the value read does not depend on the draws. -/
theorem memValue_of_not_device {s : State} {a : Word} (d : Draws) (h : s.touchesDevice a = false) :
    s.memValue d a = s.halfOf (s.byteAt a) (s.byteAt (a + 1)) := by
  simp only [State.touchesDevice, Bool.or_eq_false_iff] at h
  simp only [State.memValue, State.readByte, h.1, h.2, Bool.false_eq_true, if_false]

/-- The address the access of element `e` reads, if it reads. -/
def Gather.addressOf {vl : Nat} (q : Gather vl) (e : Nat) : Word := elementAddress q.consts q.base q.offset e

/-- An access that returns: what it leaves, in the four cases of 40 R93 to R95. -/
theorem accessElement_ok_cases {vl : Nat} {s : State} {d : Draws} {q : Gather vl} {e : Nat} {first : Bool} {a : Access}
    (h : accessElement s d q e first = .ok a) :
    (activeElement q.mask e q.consts.esize = false ∧ a = ⟨0, false, []⟩) ∨
      (activeElement q.mask e q.consts.esize = true ∧ first = true ∧ s.memStop (q.addressOf e) = none ∧
        a = ⟨s.memValue d (q.addressOf e), false, [⟨e, q.addressOf e, .faulting⟩]⟩) ∨
      (activeElement q.mask e q.consts.esize = true ∧ first = false ∧ s.nfPerforms d e (q.addressOf e) = true ∧
        a = ⟨s.memValue d (q.addressOf e), false, [⟨e, q.addressOf e, .nonFaulting⟩]⟩) ∨
      (activeElement q.mask e q.consts.esize = true ∧ first = false ∧ s.nfPerforms d e (q.addressOf e) = false ∧
        a = ⟨d.nfData e, true, []⟩) := by
  unfold accessElement at h
  cases hact : activeElement q.mask e q.consts.esize with
  | false =>
    rw [hact] at h
    left
    simpa [eq_comm] using h
  | true =>
    right
    rw [hact, if_pos rfl] at h
    cases first with
    | true =>
      left
      simp only [if_true] at h
      split at h
      · simp at h
      · next v hv =>
        obtain ⟨h1, h2⟩ := memFaulting_eq_ok.mp hv
        subst h2
        exact ⟨rfl, rfl, h1, by simpa [Gather.addressOf, eq_comm] using h⟩
    | false =>
      right
      cases hp : s.nfPerforms d e (q.addressOf e) with
      | true =>
        left
        refine ⟨rfl, rfl, rfl, ?_⟩
        have hp' : s.nfPerforms d e (elementAddress q.consts q.base q.offset e) = true := hp
        simpa [State.memNonFaulting, hp', Gather.addressOf, eq_comm] using h
      | false =>
        right
        refine ⟨rfl, rfl, rfl, ?_⟩
        have hp' : s.nfPerforms d e (elementAddress q.consts q.base q.offset e) = false := hp
        simpa [State.memNonFaulting, hp', eq_comm] using h

/-- Only the first active element's access can stop (40 R93, 60 R127). -/
theorem accessElement_error {vl : Nat} {s : State} {d : Draws} {q : Gather vl} {e : Nat} {first : Bool} {st : Stop} :
    accessElement s d q e first = .error st ↔
      activeElement q.mask e q.consts.esize = true ∧ first = true ∧ s.memStop (q.addressOf e) = some st := by
  unfold accessElement
  cases hact : activeElement q.mask e q.consts.esize with
  | false => simp
  | true =>
    cases first with
    | false => simp
    | true =>
      simp only [if_true]
      rw [← Gather.addressOf]
      cases hm : s.memFaulting d (q.addressOf e) with
      | error st' =>
        have := memFaulting_eq_error.mp hm
        simp [this]
      | ok v =>
        have := (memFaulting_eq_ok.mp hm).1
        simp [this]

end Sys2Proof.Machine
end

