-- ==== Sys2Proof/Laws/Decode.lean ====
section
/-! SUPPORT. Decoding: the rows are disjoint, so a word has at most one meaning, and the small facts of fields and bytes. -/

namespace Sys2Proof

/-- Some bit that two rows both fix differs between them (30_encoding.md R69). -/
theorem encodingTable_disjoint :
    encodingTable.Pairwise fun r r' => r.mask &&& r'.mask &&& (r.pattern ^^^ r'.pattern) ≠ 0 := by
  decide

/-- A word of two rows agrees with both patterns on the bits both fix. -/
theorem pattern_agree {r r' : EncodingRow} {w : InstrWord} (h : r.matches w = true) (h' : r'.matches w = true) :
    r.mask &&& r'.mask &&& (r.pattern ^^^ r'.pattern) = 0 := by
  simp only [EncodingRow.matches, beq_iff_eq] at h h'
  rw [← h, ← h']
  apply BitVec.eq_of_getLsbD_eq
  intro j hj
  simp only [BitVec.getLsbD_and, BitVec.getLsbD_xor]
  cases w.getLsbD j <;> cases r.mask.getLsbD j <;> cases r'.mask.getLsbD j <;> simp

/-- A decoded instruction is built by a row of the table that the word matches. -/
theorem decodeWord_ok {w : InstrWord} {i : Instr} (h : decodeWord w = .ok i) :
    ∃ r ∈ encodingTable, r.matches w = true ∧ i = r.build w := by
  unfold decodeWord at h
  split at h
  · next r hr =>
    exact ⟨r, List.mem_of_find?_eq_some hr, by simpa using List.find?_some hr, by simpa [eq_comm] using h⟩
  · simp at h

/-- The bytes of a word, put together in the order of a fetch, are the word (20_memory.md R43). -/
theorem wordOfBytes_bytes (w : InstrWord) :
    wordOfBytes (w.extractLsb' 0 8) (w.extractLsb' 8 8) (w.extractLsb' 16 8) (w.extractLsb' 24 8) = w := by
  apply BitVec.eq_of_getLsbD_eq
  intro j hj
  simp only [wordOfBytes, BitVec.getLsbD_append, BitVec.getLsbD_extractLsb']
  by_cases h0 : j < 8
  · simp [h0]
  · by_cases h1 : j < 16
    · have : j - 8 < 8 := by omega
      simp [h0, this, show 8 + (j - 8) = j by omega]
    · by_cases h2 : j < 24
      · have h3 : ¬ j - 8 < 8 := by omega
        have h4 : j - 8 - 8 < 8 := by omega
        simp [h0, h3, h4, show 16 + (j - 8 - 8) = j by omega]
      · have h3 : ¬ j - 8 < 8 := by omega
        have h4 : ¬ j - 8 - 8 < 8 := by omega
        have h5 : j - 8 - 8 - 8 < 8 := by omega
        simp [h0, h3, h4, h5, show 24 + (j - 8 - 8 - 8) = j by omega]

/-- A base register is read back from its number (30_encoding.md R71). -/
@[simp] theorem Base.ofNumber_number (b : Base) : Base.ofNumber b.number = b := by
  cases b with
  | x n => simp [Base.number, Base.ofNumber]
  | sp => rfl

/-- A register number is read back from its base register. -/
@[simp] theorem Base.number_ofNumber (n : Fin 32) : (Base.ofNumber n).number = n := by
  unfold Base.ofNumber
  split
  · rfl
  · next h =>
    apply Fin.ext
    have := n.isLt
    simp only [Base.number]
    show 31 = n.val
    omega

end Sys2Proof
end

