-- ==== Sys2Proof/Laws/Elements.lean ====
section
/-! SUPPORT. Elements of vectors, predicates and FFR: a written element reads back, the others stay. -/

namespace Sys2Proof.Machine

/-- One bit of a vector after an element is written. -/
theorem getLsbD_setElem {n : Nat} (v : BitVec n) (e size : Nat) (a : BitVec size) (j : Nat) :
    (setElem v e size a).getLsbD j =
      if j < n ∧ e * size ≤ j ∧ j < (e + 1) * size then a.getLsbD (j - e * size) else v.getLsbD j := by
  have hs : (e + 1) * size = e * size + size := Nat.succ_mul e size
  unfold setElem
  by_cases hj : j < n
  · by_cases h1 : e * size ≤ j
    · by_cases h2 : j < (e + 1) * size
      · have h3 : j - e * size < size := by omega
        simp [hj, h1, h2, h3, Nat.not_lt.mpr h1]
      · have h3 : ¬ j - e * size < size := by omega
        simp [hj, h1, h2, h3, Nat.not_lt.mpr h1, BitVec.getLsbD_of_ge a (j - e * size) (by omega)]
    · simp [hj, h1, Nat.lt_of_not_le h1]
  · simp [hj, BitVec.getLsbD_of_ge v j (by omega)]

/-- Elements `e` and `e'` share no bit when they differ. -/
theorem element_disjoint {e e' size k : Nat} (h : e' ≠ e) (hk : k < size) :
    ¬ (e * size ≤ e' * size + k ∧ e' * size + k < (e + 1) * size) := by
  rintro ⟨h1, h2⟩
  rcases Nat.lt_or_gt_of_ne h with hlt | hgt
  · have : (e' + 1) * size ≤ e * size := Nat.mul_le_mul_right size hlt
    rw [Nat.succ_mul] at this
    omega
  · have : (e + 1) * size ≤ e' * size := Nat.mul_le_mul_right size hgt
    omega

/-- An element that lies inside the vector reads back what was written to it (00_scope.md R10). -/
theorem elem_setElem_same {n : Nat} (v : BitVec n) (e size : Nat) (a : BitVec size) (h : (e + 1) * size ≤ n) :
    elem (setElem v e size a) e size = a := by
  have hs : (e + 1) * size = e * size + size := Nat.succ_mul e size
  apply BitVec.eq_of_getLsbD_eq
  intro i hi
  have h1 : e * size + i < n := by omega
  have h2 : e * size + i < (e + 1) * size := by omega
  simp only [elem, BitVec.getLsbD_extractLsb', hi, decide_true, Bool.true_and, getLsbD_setElem]
  rw [if_pos ⟨h1, Nat.le_add_right _ _, h2⟩, Nat.add_sub_cancel_left]

/-- Writing one element leaves the others as they were (00_scope.md R10). -/
theorem elem_setElem_other {n : Nat} (v : BitVec n) {e e' : Nat} (size : Nat) (a : BitVec size) (h : e' ≠ e) :
    elem (setElem v e size a) e' size = elem v e' size := by
  apply BitVec.eq_of_getLsbD_eq
  intro i hi
  have := element_disjoint h hi
  simp only [elem, BitVec.getLsbD_extractLsb', hi, decide_true, Bool.true_and, getLsbD_setElem]
  rw [if_neg]
  exact fun h' => this h'.2

/-- An element of the zero vector is zero. -/
@[simp] theorem elem_zero (n e size : Nat) : elem (0 : BitVec n) e size = 0 := by
  apply BitVec.eq_of_getLsbD_eq
  intro i hi
  simp [elem]

/-- Two vectors with equal elements are equal, when elements cover them. -/
theorem eq_of_elem_eq {n size count : Nat} (hn : count * size = n) (hs : 0 < size) {v w : BitVec n}
    (h : ∀ e < count, elem v e size = elem w e size) : v = w := by
  apply BitVec.eq_of_getLsbD_eq
  intro j hj
  have he : j / size < count := Nat.div_lt_of_lt_mul (by rw [Nat.mul_comm]; omega)
  have hm : j % size < size := Nat.mod_lt _ hs
  have := congrArg (fun b => b.getLsbD (j % size)) (h (j / size) he)
  simpa [elem, hm, Nat.mul_comm, Nat.div_add_mod] using this

/-- FFR after its element `e` is cleared, bit by bit (00_scope.md R13). -/
theorem getLsbD_clearFfrElem {pl : Nat} (ffr : BitVec pl) (e esize j : Nat) :
    (clearFfrElem ffr e esize).getLsbD j =
      (ffr.getLsbD j && !(decide (e * (esize / 8) ≤ j) && decide (j < (e + 1) * (esize / 8)))) := by
  unfold clearFfrElem
  rw [getLsbD_setElem]
  by_cases hj : j < pl
  · by_cases h : e * (esize / 8) ≤ j ∧ j < (e + 1) * (esize / 8)
    · simp [hj, h]
    · rw [if_neg (fun h' => h h'.2)]
      have : (decide (e * (esize / 8) ≤ j) && decide (j < (e + 1) * (esize / 8))) = false := by
        simpa using h
      simp [this]
  · simp [hj, BitVec.getLsbD_of_ge ffr j (by omega)]

/-- A cleared FFR element reads 0. -/
theorem ffrElem_clearFfrElem_same {pl : Nat} (ffr : BitVec pl) (e : Nat) {esize : Nat} (h : 0 < esize / 8) :
    ffrElem (clearFfrElem ffr e esize) e esize = false := by
  have : e * (esize / 8) < (e + 1) * (esize / 8) := by
    rw [Nat.succ_mul]
    omega
  simp [ffrElem, getLsbD_clearFfrElem, this]

/-- Clearing one FFR element leaves the others as they were. -/
theorem ffrElem_clearFfrElem_other {pl : Nat} (ffr : BitVec pl) {e e' esize : Nat} (h : e' ≠ e) (hs : 0 < esize / 8) :
    ffrElem (clearFfrElem ffr e esize) e' esize = ffrElem ffr e' esize := by
  have h' := element_disjoint h hs
  rw [Nat.add_zero] at h'
  have : (decide (e * (esize / 8) ≤ e' * (esize / 8)) && decide (e' * (esize / 8) < (e + 1) * (esize / 8))) = false := by
    simpa using h'
  simp [ffrElem, getLsbD_clearFfrElem, this]

/-- An FFR bit after an element is 1 only if it was 1 before (10_state.md R24). -/
theorem getLsbD_ffrAfter_le {pl : Nat} {ffr : BitVec pl} {e esize : Nat} {faulted : Bool} {j : Nat}
    (h : (ffrAfter ffr e esize faulted).getLsbD j = true) : ffr.getLsbD j = true := by
  unfold ffrAfter at h
  split at h
  · rw [getLsbD_clearFfrElem, Bool.and_eq_true] at h
    exact h.1
  · exact h

/-- With no fault so far FFR is not written (40 R96). -/
@[simp] theorem ffrAfter_false {pl : Nat} (ffr : BitVec pl) (e esize : Nat) : ffrAfter ffr e esize false = ffr := rfl

/-- After a fault the element is cleared (40 R96). -/
@[simp] theorem ffrAfter_true {pl : Nat} (ffr : BitVec pl) (e esize : Nat) :
    ffrAfter ffr e esize true = clearFfrElem ffr e esize := rfl

/-- Element sizes are 32 or 64 (40 R80 to R85). -/
theorem esize_cases (i : Instr) : (constsOf i).esize = 32 ∨ (constsOf i).esize = 64 := by
  cases i <;> simp [constsOf]

/-- FFR groups are not empty. -/
theorem esize_group_pos (i : Instr) : 0 < (constsOf i).esize / 8 := by
  rcases esize_cases i with h | h <;> simp [h]

/-- Every class loads unsigned halfwords (40 R80 to R85). -/
@[simp] theorem constsOf_isUnsigned (i : Instr) : (constsOf i).isUnsigned = true := by
  cases i <;> rfl

/-- Elements cover a vector of admissible length exactly (40 R106). -/
theorem elements_cover {vl : Nat} (h : vlOk vl = true) (i : Instr) :
    elementCount vl (constsOf i) * (constsOf i).esize = vl := by
  simp only [vlOk, Bool.and_eq_true, decide_eq_true_eq] at h
  rcases esize_cases i with he | he <;> simp only [elementCount, he] <;> omega

/-- FFR groups cover FFR exactly (40 R96). -/
theorem groups_cover {vl : Nat} (h : vlOk vl = true) (i : Instr) :
    elementCount vl (constsOf i) * ((constsOf i).esize / 8) = vl / 8 := by
  simp only [vlOk, Bool.and_eq_true, decide_eq_true_eq] at h
  rcases esize_cases i with he | he <;> simp only [elementCount, he] <;> omega

/-- An admissible length has at least one element. -/
theorem elementCount_pos {vl : Nat} (h : vlOk vl = true) (i : Instr) : 0 < elementCount vl (constsOf i) := by
  simp only [vlOk, Bool.and_eq_true, decide_eq_true_eq] at h
  rcases esize_cases i with he | he <;> simp only [elementCount, he] <;> omega

end Sys2Proof.Machine
end

