-- ==== Sys2Proof/Laws/Loop.lean ====
section
/-! SUPPORT. The element loop: its induction packaged once, where it can stop, and what it leaves, element by element. -/

namespace Sys2Proof.Machine

section
variable {vl : Nat} {s : State} {d : Draws} {q : Gather vl}

/-- A body that returns did its access and then the rest. -/
theorem elementStep_eq_ok {e : Nat} {l l' : Loop vl} :
    elementStep s d q e l = .ok l' ↔ ∃ a, accessElement s d q e l.first = .ok a ∧ l' = afterAccess d q e l a := by
  unfold elementStep
  cases accessElement s d q e l.first with
  | error st => simp
  | ok a => simp [eq_comm]

theorem elementStep_eq_error {e : Nat} {l : Loop vl} {st : Stop} :
    elementStep s d q e l = .error st ↔ accessElement s d q e l.first = .error st := by
  unfold elementStep
  cases accessElement s d q e l.first with
  | error st' => simp
  | ok a => simp

/-- The loop's induction: a property of the element number and the locals that every body keeps holds at the end. -/
theorem elementLoop_induct {P : Nat → Loop vl → Prop} {n : Nat}
    (body : ∀ e l l', e < n → P e l → elementStep s d q e l = .ok l' → P (e + 1) l') :
    ∀ (k e : Nat) {l l' : Loop vl}, e + k = n → P e l → elementLoop s d q k e l = .ok l' → P n l'
  | 0, e, l, l', hn, hl, h => by
    have : e = n := by omega
    subst this
    simp only [elementLoop, Except.ok.injEq] at h
    exact h ▸ hl
  | k + 1, e, l, l', hn, hl, h => by
    simp only [elementLoop] at h
    split at h
    · simp at h
    · next l1 h1 => exact elementLoop_induct body k (e + 1) (by omega) (body e l l1 (by omega) hl h1) h

/-- A loop that stops, stops in the body of some element, reached with the property. -/
theorem elementLoop_error {P : Nat → Loop vl → Prop} {n : Nat} {st : Stop}
    (body : ∀ e l l', e < n → P e l → elementStep s d q e l = .ok l' → P (e + 1) l') :
    ∀ (k e : Nat) {l : Loop vl}, e + k = n → P e l → elementLoop s d q k e l = .error st →
      ∃ e' l', e' < n ∧ P e' l' ∧ elementStep s d q e' l' = .error st
  | 0, e, l, hn, hl, h => by simp [elementLoop] at h
  | k + 1, e, l, hn, hl, h => by
    simp only [elementLoop] at h
    split at h
    · next st' h1 => exact ⟨e, l, by omega, hl, by simpa using h ▸ h1⟩
    · next l1 h1 => exact elementLoop_error body k (e + 1) (by omega) (body e l l1 (by omega) hl h1) h

/-! ## What the loop leaves, as functions of the element number -/

/-- Some element below `n` is active. -/
def activeBelow (q : Gather vl) (n : Nat) : Bool := (List.range n).any fun e => activeElement q.mask e q.consts.esize

/-- What the access of element `e` leaves when it does not stop (40 R93 to R95). -/
def accessAt (s : State) (d : Draws) (q : Gather vl) (e : Nat) : Access :=
  if activeElement q.mask e q.consts.esize then
    if activeBelow q e then
      if s.nfPerforms d e (q.addressOf e) then
        ⟨s.memValue d (q.addressOf e), false, [⟨e, q.addressOf e, .nonFaulting⟩]⟩
      else ⟨d.nfData e, true, []⟩
    else ⟨s.memValue d (q.addressOf e), false, [⟨e, q.addressOf e, .faulting⟩]⟩
  else ⟨0, false, []⟩

/-- `faulted` before element `n` (40 R96). -/
def faultedBelow (s : State) (d : Draws) (q : Gather vl) (n : Nat) : Bool :=
  (List.range n).any fun e => (accessAt s d q e).fault

/-- Some FFR element below `n` reads 0: `unknown` before element `n` (40 R97). -/
def ffrFalseBelow {pl : Nat} (ffr : BitVec pl) (esize n : Nat) : Bool :=
  (List.range n).any fun e => !ffrElem ffr e esize

/-- The loop's locals before element `n`, the loop having begun with FFR `ffr0`. -/
structure LoopAt (s : State) (d : Draws) (q : Gather vl) (ffr0 : BitVec (vl / 8)) (n : Nat) (l : Loop vl) : Prop where
  first : l.first = !activeBelow q n
  faulted : l.faulted = faultedBelow s d q n
  unknown : l.unknown = ffrFalseBelow l.ffr q.consts.esize n
  /-- From the first fault upward every group visited is cleared; nothing else is written (40 R96). -/
  ffr : ∀ j, l.ffr.getLsbD j =
    (ffr0.getLsbD j && !((List.range n).any fun e =>
      faultedBelow s d q (e + 1) && decide (e * (q.consts.esize / 8) ≤ j) && decide (j < (e + 1) * (q.consts.esize / 8))))
  /-- An element's result, by the FFR elements up to it as the loop leaves them (40 R97). -/
  result : ∀ e < n, elem l.result e q.consts.esize =
    elementResult d q e (ffrFalseBelow l.ffr q.consts.esize (e + 1)) (accessAt s d q e)
  reads : l.reads = (List.range n).flatMap fun e => (accessAt s d q e).reads
  /-- The first active element was read, so nothing stops its access (40 R93). -/
  readable : ∀ f < n, activeElement q.mask f q.consts.esize = true → activeBelow q f = false →
    s.memStop (q.addressOf f) = none

theorem activeBelow_succ (q : Gather vl) (n : Nat) :
    activeBelow q (n + 1) = (activeBelow q n || activeElement q.mask n q.consts.esize) := by
  simp [activeBelow, List.range_succ]

theorem faultedBelow_succ (n : Nat) :
    faultedBelow s d q (n + 1) = (faultedBelow s d q n || (accessAt s d q n).fault) := by
  simp [faultedBelow, List.range_succ]

theorem ffrFalseBelow_succ {pl : Nat} (ffr : BitVec pl) (esize n : Nat) :
    ffrFalseBelow ffr esize (n + 1) = (ffrFalseBelow ffr esize n || !ffrElem ffr n esize) := by
  simp [ffrFalseBelow, List.range_succ]

/-- FFR elements below `n` do not see what happens to element `n`. -/
theorem ffrFalseBelow_ffrAfter {pl : Nat} (ffr : BitVec pl) {esize n e : Nat} (faulted : Bool) (hs : 0 < esize / 8)
    (he : e ≤ n) : ffrFalseBelow (ffrAfter ffr n esize faulted) esize e = ffrFalseBelow ffr esize e := by
  cases faulted with
  | false => rfl
  | true =>
    simp only [ffrFalseBelow, ffrAfter_true]
    rw [Bool.eq_iff_iff, List.any_eq_true, List.any_eq_true]
    refine exists_congr fun k => and_congr_right fun hk => ?_
    have hk' : k ≠ n := by
      have := List.mem_range.mp hk
      omega
    rw [ffrElem_clearFfrElem_other ffr hk' hs]

/-- The access that the body of element `n` makes is the one named by `accessAt`. -/
theorem accessElement_eq_accessAt {n : Nat} {first : Bool} {a : Access} (hf : first = !activeBelow q n)
    (h : accessElement s d q n first = .ok a) : a = accessAt s d q n := by
  unfold accessAt
  rcases accessElement_ok_cases h with ⟨h1, h2⟩ | ⟨h1, h2, _, h4⟩ | ⟨h1, h2, h3, h4⟩ | ⟨h1, h2, h3, h4⟩
  · simp [h1, h2]
  · have : activeBelow q n = false := by simpa [h2] using hf
    simp [h1, this, h4]
  · have : activeBelow q n = true := by simpa [h2] using hf
    simp [h1, this, h3, h4]
  · have : activeBelow q n = true := by simpa [h2] using hf
    simp [h1, this, h3, h4]

theorem loopAt_start (ffr0 : BitVec (vl / 8)) : LoopAt s d q ffr0 0 (Loop.start ffr0) where
  first := rfl
  faulted := rfl
  unknown := rfl
  ffr := by simp [Loop.start]
  result := by simp
  reads := rfl
  readable := by simp

/-- The body of element `n` takes the loop from before `n` to before `n + 1`. -/
theorem loopAt_step {ffr0 : BitVec (vl / 8)} {n : Nat} {l l' : Loop vl} (hs : 0 < q.consts.esize / 8)
    (hn : (n + 1) * q.consts.esize ≤ vl) (hl : LoopAt s d q ffr0 n l) (h : elementStep s d q n l = .ok l') :
    LoopAt s d q ffr0 (n + 1) l' := by
  obtain ⟨a, ha, rfl⟩ := elementStep_eq_ok.mp h
  have haa := accessElement_eq_accessAt hl.first ha
  subst haa
  have hfault : (l.faulted || (accessAt s d q n).fault) = faultedBelow s d q (n + 1) := by
    rw [faultedBelow_succ, hl.faulted]
  have hunk : (l.unknown || !ffrElem (ffrAfter l.ffr n q.consts.esize (l.faulted || (accessAt s d q n).fault)) n
      q.consts.esize) = ffrFalseBelow (ffrAfter l.ffr n q.consts.esize (l.faulted || (accessAt s d q n).fault))
        q.consts.esize (n + 1) := by
    rw [ffrFalseBelow_succ, ffrFalseBelow_ffrAfter _ _ hs (Nat.le_refl n), hl.unknown]
  refine ⟨?_, hfault, hunk, ?_, ?_, ?_, ?_⟩
  · simp [afterAccess, activeBelow_succ, hl.first, Bool.not_or]
  · intro j
    simp only [afterAccess]
    rw [List.range_succ, List.any_append, hfault]
    cases hf : faultedBelow s d q (n + 1) with
    | false => simp [hl.ffr j, hf]
    | true =>
      rw [ffrAfter_true, getLsbD_clearFfrElem, hl.ffr j]
      simp [hf, Bool.not_or, Bool.and_assoc]
  · intro e he
    simp only [afterAccess]
    by_cases hen : e = n
    · subst hen
      rw [elem_setElem_same _ _ _ _ hn, hunk]
    · rw [elem_setElem_other _ _ _ hen, hl.result e (by omega), ffrFalseBelow_ffrAfter _ _ hs (by omega)]
  · simp [afterAccess, List.range_succ, hl.reads]
  · intro f hf hact hbelow
    by_cases hfn : f = n
    · subst hfn
      cases hm : s.memStop (q.addressOf f) with
      | none => rfl
      | some st =>
        have hfirst : l.first = true := by rw [hl.first, hbelow]; rfl
        rw [accessElement_error.mpr ⟨hact, hfirst, hm⟩] at ha
        simp at ha
    · exact hl.readable f (by omega) hact hbelow

/-- What a whole loop leaves. -/
theorem elementLoop_spec {ffr0 : BitVec (vl / 8)} {n : Nat} {l : Loop vl} (hs : 0 < q.consts.esize / 8)
    (hn : n * q.consts.esize ≤ vl) (h : elementLoop s d q n 0 (Loop.start ffr0) = .ok l) : LoopAt s d q ffr0 n l :=
  elementLoop_induct (P := fun e l => LoopAt s d q ffr0 e l) (n := n)
    (fun _ _ _ he hl h' => loopAt_step hs (le_trans (Nat.mul_le_mul_right _ he) hn) hl h')
    n 0 (Nat.zero_add n) (loopAt_start ffr0) h

/-- A loop stops only in the access of the first active element (40 R93, 60 R127). -/
theorem elementLoop_stop {ffr0 : BitVec (vl / 8)} {n : Nat} {st : Stop} (hs : 0 < q.consts.esize / 8)
    (hn : n * q.consts.esize ≤ vl) (h : elementLoop s d q n 0 (Loop.start ffr0) = .error st) :
    ∃ f < n, activeElement q.mask f q.consts.esize = true ∧ activeBelow q f = false ∧
      s.memStop (q.addressOf f) = some st := by
  obtain ⟨f, l, hf, hl, hst⟩ := elementLoop_error (P := fun e l => LoopAt s d q ffr0 e l) (n := n)
    (fun _ _ _ he hl h' => loopAt_step hs (le_trans (Nat.mul_le_mul_right _ he) hn) hl h')
    n 0 (Nat.zero_add n) (loopAt_start ffr0) h
  obtain ⟨h1, h2, h3⟩ := accessElement_error.mp (elementStep_eq_error.mp hst)
  refine ⟨f, hf, h1, ?_, h3⟩
  simpa [hl.first] using h2

/-- A loop whose first active element can be read returns (40 R86). -/
theorem elementLoop_total {ffr0 : BitVec (vl / 8)} {n : Nat} (hs : 0 < q.consts.esize / 8)
    (hn : n * q.consts.esize ≤ vl)
    (hr : ∀ f < n, activeElement q.mask f q.consts.esize = true → activeBelow q f = false →
      s.memStop (q.addressOf f) = none) :
    ∃ l, elementLoop s d q n 0 (Loop.start ffr0) = .ok l ∧ LoopAt s d q ffr0 n l := by
  cases h : elementLoop s d q n 0 (Loop.start ffr0) with
  | ok l => exact ⟨l, rfl, elementLoop_spec hs hn h⟩
  | error st =>
    obtain ⟨f, hf, h1, h2, h3⟩ := elementLoop_stop hs hn h
    rw [hr f hf h1 h2] at h3
    simp at h3

/-- A loop whose first active element cannot be read stops there (40 R93). -/
theorem elementLoop_first_stops {ffr0 : BitVec (vl / 8)} {n f : Nat} {st : Stop} (hs : 0 < q.consts.esize / 8)
    (hn : n * q.consts.esize ≤ vl) (hf : f < n) (h1 : activeElement q.mask f q.consts.esize = true)
    (h2 : activeBelow q f = false) (h3 : s.memStop (q.addressOf f) = some st) :
    elementLoop s d q n 0 (Loop.start ffr0) = .error st := by
  cases h : elementLoop s d q n 0 (Loop.start ffr0) with
  | ok l =>
    have := (elementLoop_spec hs hn h).readable f hf h1 h2
    rw [h3] at this
    simp at this
  | error st' =>
    obtain ⟨g, hg, g1, g2, g3⟩ := elementLoop_stop hs hn h
    have hfg : f = g := by
      rcases Nat.lt_trichotomy f g with hlt | heq | hgt
      · exact absurd h1 (by simpa using List.any_eq_false.mp g2 f (List.mem_range.mpr hlt))
      · exact heq
      · exact absurd g1 (by simpa using List.any_eq_false.mp h2 g (List.mem_range.mpr hgt))
    subst hfg
    rw [h3] at g3
    rw [Option.some.inj g3]

/-- A loop over another state, predicate, base and offsets is the same loop, when every element it visits is as active and
its access answers the same. -/
theorem elementLoop_congr {s' : State} {mask : BitVec (vl / 8)} {base : Word} {offset : BitVec vl} :
    ∀ (k e : Nat) (l : Loop vl),
      (∀ j, e ≤ j → j < e + k → activeElement mask j q.consts.esize = activeElement q.mask j q.consts.esize) →
      (∀ j first, e ≤ j → j < e + k →
        accessElement s' d { q with mask := mask, base := base, offset := offset } j first =
          accessElement s d q j first) →
      elementLoop s' d { q with mask := mask, base := base, offset := offset } k e l = elementLoop s d q k e l
  | 0, _, _, _, _ => rfl
  | k + 1, e, l, hact, hacc => by
    have hafter : ∀ a, afterAccess d { q with mask := mask, base := base, offset := offset } e l a =
        afterAccess d q e l a := by
      intro a
      simp only [afterAccess, hact e (Nat.le_refl e) (by omega)]
      rfl
    have hbody : elementStep s' d { q with mask := mask, base := base, offset := offset } e l = elementStep s d q e l := by
      simp only [elementStep, hacc e l.first (Nat.le_refl e) (by omega), hafter]
    simp only [elementLoop, hbody]
    split
    · rfl
    · exact elementLoop_congr k (e + 1) _ (fun j h1 h2 => hact j (by omega) (by omega))
        (fun j first h1 h2 => hacc j first (by omega) (by omega))

end

end Sys2Proof.Machine
end

