-- ==== Sys2Proof/Laws/State.lean ====
section
/-! SUPPORT. One lemma per field for each update of the state. Predicates, vectors and FFR carry `VL` in their types; an
update keeps `VL`, so their lemmas are between values of the same type. -/

namespace Sys2Proof.Machine

/-! ## `State.trap` -/

@[simp] theorem trap_vl (s : State) (x : Exception) : (s.trap x).vl = s.vl := rfl
@[simp] theorem trap_x (s : State) (x : Exception) : (s.trap x).x = s.x := rfl
@[simp] theorem trap_sp (s : State) (x : Exception) : (s.trap x).sp = s.sp := rfl
@[simp] theorem trap_z (s : State) (x : Exception) : (s.trap x).z = s.z := rfl
@[simp] theorem trap_p (s : State) (x : Exception) : (s.trap x).p = s.p := rfl
@[simp] theorem trap_ffr (s : State) (x : Exception) : (s.trap x).ffr = s.ffr := rfl
@[simp] theorem trap_pc (s : State) (x : Exception) : (s.trap x).pc = s.pc := rfl
@[simp] theorem trap_mem (s : State) (x : Exception) : (s.trap x).mem = s.mem := rfl
@[simp] theorem trap_map (s : State) (x : Exception) : (s.trap x).map = s.map := rfl
@[simp] theorem trap_haveSve (s : State) (x : Exception) : (s.trap x).haveSve = s.haveSve := rfl
@[simp] theorem trap_sveEnabled (s : State) (x : Exception) : (s.trap x).sveEnabled = s.sveEnabled := rfl
@[simp] theorem trap_streaming (s : State) (x : Exception) : (s.trap x).streaming = s.streaming := rfl
@[simp] theorem trap_fa64Enabled (s : State) (x : Exception) : (s.trap x).fa64Enabled = s.fa64Enabled := rfl
@[simp] theorem trap_spAlignCheck (s : State) (x : Exception) : (s.trap x).spAlignCheck = s.spAlignCheck := rfl
@[simp] theorem trap_bigEndianData (s : State) (x : Exception) : (s.trap x).bigEndianData = s.bigEndianData := rfl
@[simp] theorem trap_alignEnforced (s : State) (x : Exception) : (s.trap x).alignEnforced = s.alignEnforced := rfl
@[simp] theorem trap_codeBase (s : State) (x : Exception) : (s.trap x).codeBase = s.codeBase := rfl
@[simp] theorem trap_codeLen (s : State) (x : Exception) : (s.trap x).codeLen = s.codeLen := rfl
@[simp] theorem trap_status (s : State) (x : Exception) : (s.trap x).status = .trapped x := rfl
@[simp] theorem trap_reads (s : State) (x : Exception) : (s.trap x).reads = s.reads := rfl
@[simp] theorem trap_draws (s : State) (x : Exception) : (s.trap x).draws = s.draws := rfl

/-! ## `State.endRun` -/

@[simp] theorem endRun_vl (s : State) : s.endRun.vl = s.vl := rfl
@[simp] theorem endRun_x (s : State) : s.endRun.x = s.x := rfl
@[simp] theorem endRun_sp (s : State) : s.endRun.sp = s.sp := rfl
@[simp] theorem endRun_z (s : State) : s.endRun.z = s.z := rfl
@[simp] theorem endRun_p (s : State) : s.endRun.p = s.p := rfl
@[simp] theorem endRun_ffr (s : State) : s.endRun.ffr = s.ffr := rfl
@[simp] theorem endRun_pc (s : State) : s.endRun.pc = s.pc := rfl
@[simp] theorem endRun_mem (s : State) : s.endRun.mem = s.mem := rfl
@[simp] theorem endRun_map (s : State) : s.endRun.map = s.map := rfl
@[simp] theorem endRun_haveSve (s : State) : s.endRun.haveSve = s.haveSve := rfl
@[simp] theorem endRun_sveEnabled (s : State) : s.endRun.sveEnabled = s.sveEnabled := rfl
@[simp] theorem endRun_streaming (s : State) : s.endRun.streaming = s.streaming := rfl
@[simp] theorem endRun_fa64Enabled (s : State) : s.endRun.fa64Enabled = s.fa64Enabled := rfl
@[simp] theorem endRun_spAlignCheck (s : State) : s.endRun.spAlignCheck = s.spAlignCheck := rfl
@[simp] theorem endRun_bigEndianData (s : State) : s.endRun.bigEndianData = s.bigEndianData := rfl
@[simp] theorem endRun_alignEnforced (s : State) : s.endRun.alignEnforced = s.alignEnforced := rfl
@[simp] theorem endRun_codeBase (s : State) : s.endRun.codeBase = s.codeBase := rfl
@[simp] theorem endRun_codeLen (s : State) : s.endRun.codeLen = s.codeLen := rfl
@[simp] theorem endRun_status (s : State) : s.endRun.status = .endedWell := rfl
@[simp] theorem endRun_reads (s : State) : s.endRun.reads = s.reads := rfl
@[simp] theorem endRun_draws (s : State) : s.endRun.draws = s.draws := rfl

/-! ## `State.finish` -/

section
variable (s : State) (t : Fin 32) (v : BitVec s.vl) (f : BitVec (s.vl / 8)) (rs : List ReadEvent)

@[simp] theorem finish_vl : (s.finish t v f rs).vl = s.vl := rfl
@[simp] theorem finish_x : (s.finish t v f rs).x = s.x := rfl
@[simp] theorem finish_sp : (s.finish t v f rs).sp = s.sp := rfl
@[simp] theorem finish_z : (s.finish t v f rs).z = s.z.set t.val v := rfl
@[simp] theorem finish_p : (s.finish t v f rs).p = s.p := rfl
@[simp] theorem finish_ffr : (s.finish t v f rs).ffr = f := rfl
@[simp] theorem finish_pc : (s.finish t v f rs).pc = s.pc + 4 := rfl
@[simp] theorem finish_mem : (s.finish t v f rs).mem = s.mem := rfl
@[simp] theorem finish_map : (s.finish t v f rs).map = s.map := rfl
@[simp] theorem finish_haveSve : (s.finish t v f rs).haveSve = s.haveSve := rfl
@[simp] theorem finish_sveEnabled : (s.finish t v f rs).sveEnabled = s.sveEnabled := rfl
@[simp] theorem finish_streaming : (s.finish t v f rs).streaming = s.streaming := rfl
@[simp] theorem finish_fa64Enabled : (s.finish t v f rs).fa64Enabled = s.fa64Enabled := rfl
@[simp] theorem finish_spAlignCheck : (s.finish t v f rs).spAlignCheck = s.spAlignCheck := rfl
@[simp] theorem finish_bigEndianData : (s.finish t v f rs).bigEndianData = s.bigEndianData := rfl
@[simp] theorem finish_alignEnforced : (s.finish t v f rs).alignEnforced = s.alignEnforced := rfl
@[simp] theorem finish_codeBase : (s.finish t v f rs).codeBase = s.codeBase := rfl
@[simp] theorem finish_codeLen : (s.finish t v f rs).codeLen = s.codeLen := rfl
@[simp] theorem finish_status : (s.finish t v f rs).status = s.status := rfl
@[simp] theorem finish_reads : (s.finish t v f rs).reads = s.reads ++ rs := rfl
@[simp] theorem finish_draws : (s.finish t v f rs).draws = s.draws + 1 := rfl

/-- The destination after a completed instruction. -/
@[simp] theorem finish_zReg_same : (s.finish t v f rs).zReg t = v := by
  simp [State.zReg, State.finish]

/-- Another vector register after a completed instruction (10_state.md R34). -/
theorem finish_zReg_other {r : Fin 32} (h : r ≠ t) : (s.finish t v f rs).zReg r = s.zReg r := by
  have : t.val ≠ r.val := fun e => h (Fin.ext e.symm)
  simp [State.zReg, State.finish, this]

end

/-- A completed instruction has moved `pc`, so it is told from a trap by `pc` alone. -/
theorem add_four_ne (a : Word) : a + 4 ≠ a := by
  intro h
  have := congrArg (fun b => b - a) h
  simp at this

end Sys2Proof.Machine
end

