-- ==== Sys2Proof/Laws/Exec.lean ====
section
/-! SUPPORT. Everything one execution can do. -/

namespace Sys2Proof.Machine

/-- The six meanings are the shared operation, each on its own instruction and the free values of this execution. -/
theorem exec_eq_ldff1h (i : Instr) (s : State) : exec i s = ldff1h i (Draws.ofExecution s.draws) s := by
  cases i <;> rfl

theorem complete_eq_next {s u : State} {t : Fin 32} {v : BitVec s.vl} {f : BitVec (s.vl / 8)} {rs : List ReadEvent} :
    complete s t v f rs = .next u ↔ s.pc ≠ lastPc ∧ u = s.finish t v f rs := by
  unfold complete
  split
  · next h => simp [h]
  · next h => simp [h, eq_comm]

theorem stopWith_eq_next {st : Stop} {s u : State} : stopWith st s = .next u ↔ ∃ x, st = .raise x ∧ u = s.trap x := by
  cases st with
  | raise x => simp [stopWith, takeException, eq_comm]
  | refuse r => simp [stopWith]

/-- The enables that raise, by which exception (40 R87). -/
theorem accessCheck_cases {s : State} {w : InstrWord} {x : Exception} (h : s.accessCheck w = some x) :
    (x = .undefined w ∧ s.haveSve = false) ∨ (x = .sveAccessTrap ∧ s.haveSve = true ∧ s.sveEnabled = false) ∨
      (x = .streamingModeTrap ∧ s.haveSve = true ∧ s.sveEnabled = true ∧ s.streaming = true ∧ s.fa64Enabled = false) := by
  unfold State.accessCheck at h
  cases h1 : s.haveSve <;> cases h2 : s.sveEnabled <;> cases h3 : s.streaming <;> cases h4 : s.fa64Enabled <;>
    simp [h1, h2, h3, h4] at h <;> simp [← h]

theorem accessCheck_none {s : State} {w : InstrWord} :
    s.accessCheck w = none ↔
      s.haveSve = true ∧ s.sveEnabled = true ∧ (s.streaming = true → s.fa64Enabled = true) := by
  unfold State.accessCheck
  cases s.haveSve <;> cases s.sveEnabled <;> cases s.streaming <;> cases s.fa64Enabled <;> simp

/-- Everything an execution that answers a next state can have done: taken an exception of a check, taken the exception
of the loop, or completed with what the loop leaves (40 R86). -/
theorem ldff1h_next_cases {i : Instr} {d : Draws} {s u : State} (h : ldff1h i d s = .next u) :
    vlOk s.vl = true ∧
      ((∃ x, s.accessCheck (encode i) = some x ∧ u = s.trap x) ∨
        (s.accessCheck (encode i) = none ∧ s.spCheckFails d i = true ∧ u = s.trap .spAlignmentFault) ∨
        (s.accessCheck (encode i) = none ∧ s.spCheckFails d i = false ∧ ∃ x,
          elementLoop s d (s.gather i) (elementCount s.vl (constsOf i)) 0 (Loop.start s.ffr) = .error (.raise x) ∧
            u = s.trap x) ∨
        (s.accessCheck (encode i) = none ∧ s.spCheckFails d i = false ∧ s.pc ≠ lastPc ∧
          ∃ l, elementLoop s d (s.gather i) (elementCount s.vl (constsOf i)) 0 (Loop.start s.ffr) = .ok l ∧
            u = s.finish i.zt l.result l.ffr l.reads)) := by
  unfold ldff1h at h
  split at h
  · simp at h
  · next hv =>
    refine ⟨by simpa using hv, ?_⟩
    split at h
    · next x hx =>
      left
      exact ⟨x, hx, by simpa [takeException, eq_comm] using h⟩
    · next hx =>
      right
      split at h
      · next hsp =>
        left
        exact ⟨hx, hsp, by simpa [takeException, eq_comm] using h⟩
      · next hsp =>
        right
        have hsp' : s.spCheckFails d i = false := by simpa using hsp
        split at h
        · next st hst =>
          left
          obtain ⟨x, rfl, rfl⟩ := stopWith_eq_next.mp h
          exact ⟨hx, hsp', x, hst, rfl⟩
        · next l hl =>
          right
          obtain ⟨hpc, rfl⟩ := complete_eq_next.mp h
          exact ⟨hx, hsp', hpc, l, hl, rfl⟩

/-- The gather's own names, for rewriting. -/
@[simp] theorem gather_consts (s : State) (i : Instr) : (s.gather i).consts = constsOf i := rfl
@[simp] theorem gather_mask (s : State) (i : Instr) : (s.gather i).mask = s.pReg i.pg := rfl
@[simp] theorem gather_base (s : State) (i : Instr) : (s.gather i).base = s.baseValue i.rn := rfl
@[simp] theorem gather_offset (s : State) (i : Instr) : (s.gather i).offset = s.zReg i.zm := rfl
@[simp] theorem gather_orig (s : State) (i : Instr) : (s.gather i).orig = s.zReg i.zt := rfl

/-- What the loop of an execution leaves. -/
theorem gather_loop_spec {i : Instr} {d : Draws} {s : State} {l : Loop s.vl} (hv : vlOk s.vl = true)
    (h : elementLoop s d (s.gather i) (elementCount s.vl (constsOf i)) 0 (Loop.start s.ffr) = .ok l) :
    LoopAt s d (s.gather i) s.ffr (elementCount s.vl (constsOf i)) l :=
  elementLoop_spec (esize_group_pos i) (Nat.le_of_eq (elements_cover hv i)) h

/-- An execution that answers a state whose `pc` moved has completed, with what the loop leaves (40 R98). -/
theorem ldff1h_completed {i : Instr} {d : Draws} {s u : State} (h : ldff1h i d s = .next u) (hpc : u.pc = s.pc + 4) :
    vlOk s.vl = true ∧ ∃ l, LoopAt s d (s.gather i) s.ffr (elementCount s.vl (constsOf i)) l ∧
      u = s.finish i.zt l.result l.ffr l.reads := by
  obtain ⟨hv, ⟨x, _, rfl⟩ | ⟨_, _, rfl⟩ | ⟨_, _, x, _, rfl⟩ | ⟨_, _, _, l, hl, rfl⟩⟩ := ldff1h_next_cases h
  · exact absurd hpc.symm (add_four_ne _)
  · exact absurd hpc.symm (add_four_ne _)
  · exact absurd hpc.symm (add_four_ne _)
  · exact ⟨hv, l, gather_loop_spec hv hl, rfl⟩

end Sys2Proof.Machine
end

