-- ==== Sys2Proof/Laws/Memory.lean ====
section
/-! SUPPORT. Memory: what a read gives after a write, and that every operation keeps the canonical form. -/

namespace Sys2Proof.Machine

theorem memAbove_trans {a b : Nat} (h : a < b) : ∀ {m : List Host.Cell}, memAbove b m = true → memAbove a m = true
  | [], _ => rfl
  | (k, _) :: m, hm => by
    simp only [memAbove, Bool.and_eq_true, decide_eq_true_eq] at hm ⊢
    exact ⟨by omega, memAbove_trans h hm.2⟩

/-- An address not above the listed ones reads as an unlisted byte. -/
theorem memGet_of_memAbove {a : Nat} : ∀ {m : List Host.Cell}, memAbove a m = true → memGet m a = unlistedByte
  | [], _ => rfl
  | (k, _) :: m, hm => by
    simp only [memAbove, Bool.and_eq_true, decide_eq_true_eq] at hm
    have hk : k ≠ a := by omega
    simp [memGet, hk, memGet_of_memAbove hm.2]

/-- A write leaves every other address alone. -/
theorem memGet_memPut_other {a b : Nat} (h : b ≠ a) (v : Byte) :
    ∀ m : List Host.Cell, memGet (memPut m a v) b = memGet m b
  | [] => by
    unfold memPut
    split <;> simp [memGet, Ne.symm h]
  | (k, w) :: m => by
    unfold memPut
    split
    · split <;> simp [memGet, Ne.symm h]
    · split
      · next hk =>
        subst hk
        split <;> simp [memGet, Ne.symm h]
      · simp only [memGet, memGet_memPut_other h v m]

/-- A read after a write to the same address gives the value written. -/
theorem memGet_memPut_same {a : Nat} (v : Byte) : ∀ {m : List Host.Cell}, memWf m = true → memGet (memPut m a v) a = v
  | [], _ => by
    unfold memPut
    split
    · next h => simp [memGet, h]
    · simp [memGet]
  | (k, w) :: m, hm => by
    simp only [memWf, Bool.and_eq_true, decide_eq_true_eq] at hm
    obtain ⟨⟨⟨_, _⟩, hab⟩, hwf⟩ := hm
    unfold memPut
    split
    · next hlt =>
      split
      · next hv =>
        have : k ≠ a := by omega
        simp [memGet, this, memGet_of_memAbove (memAbove_trans hlt hab), hv]
      · simp [memGet]
    · split
      · next hk =>
        subst hk
        split
        · next hv => simp [memGet_of_memAbove hab, hv]
        · simp [memGet]
      · next hk => simp [memGet, hk, memGet_memPut_same v hwf]

theorem memAbove_memPut {a b : Nat} (h : b < a) (v : Byte) :
    ∀ {m : List Host.Cell}, memAbove b m = true → memAbove b (memPut m a v) = true
  | [], _ => by
    unfold memPut
    split <;> simp [memAbove, h]
  | (k, w) :: m, hm => by
    have hm' := hm
    simp only [memAbove, Bool.and_eq_true, decide_eq_true_eq] at hm'
    unfold memPut
    split
    · split <;> simp [memAbove, h, hm'.1, hm'.2]
    · split
      · split <;> simp [memAbove, h, hm'.2]
      · simp [memAbove, hm'.1, memAbove_memPut h v hm'.2]

/-- A write inside the address space keeps the canonical form. -/
theorem memPut_wf {a : Nat} (ha : a < 2 ^ 64) (v : Byte) :
    ∀ {m : List Host.Cell}, memWf m = true → memWf (memPut m a v) = true
  | [], _ => by
    unfold memPut
    split
    · rfl
    · next h => simp only [memWf, memAbove, Bool.and_true, Bool.and_eq_true, decide_eq_true_eq]; exact ⟨ha, h⟩
  | (k, w) :: m, hm => by
    have hm' := hm
    simp only [memWf, Bool.and_eq_true, decide_eq_true_eq] at hm'
    obtain ⟨⟨⟨hk, hw⟩, hab⟩, hwf⟩ := hm'
    unfold memPut
    split
    · next hlt =>
      split
      · exact hm
      · next hv =>
        simp only [memWf, memAbove, Bool.and_eq_true, decide_eq_true_eq]
        exact ⟨⟨⟨ha, hv⟩, hlt, memAbove_trans hlt hab⟩, ⟨⟨hk, hw⟩, hab⟩, hwf⟩
    · split
      · next hka =>
        subst hka
        split
        · exact hwf
        · next hv =>
          simp only [memWf, Bool.and_eq_true, decide_eq_true_eq]
          exact ⟨⟨⟨ha, hv⟩, hab⟩, hwf⟩
      · next hlt hne =>
        simp only [memWf, Bool.and_eq_true, decide_eq_true_eq]
        exact ⟨⟨⟨hk, hw⟩, memAbove_memPut (by omega) v hab⟩, memPut_wf ha v hwf⟩

/-- Placing bytes keeps the canonical form. -/
theorem putBytes_wf : ∀ (bs : List Byte) {m : List Host.Cell} (a : Word), memWf m = true → memWf (putBytes m a bs) = true
  | [], _, _, hm => hm
  | b :: bs, _, a, hm => putBytes_wf bs (a + 1) (memPut_wf a.isLt b hm)

/-- Placing bytes leaves every other address alone. -/
theorem memGet_putBytes_other {b : Nat} :
    ∀ (bs : List Byte) (m : List Host.Cell) (a : Word), (∀ i < bs.length, b ≠ (a + BitVec.ofNat 64 i).toNat) →
      memGet (putBytes m a bs) b = memGet m b
  | [], _, _, _ => rfl
  | v :: bs, m, a, h => by
    have h0 : b ≠ a.toNat := by simpa using h 0 (by simp)
    have hs : ∀ i < bs.length, b ≠ (a + 1 + BitVec.ofNat 64 i).toNat := by
      intro i hi
      have := h (i + 1) (by simpa using hi)
      rwa [show a + BitVec.ofNat 64 (i + 1) = a + 1 + BitVec.ofNat 64 i by bv_omega] at this
    simp only [putBytes]
    rw [memGet_putBytes_other bs _ (a + 1) hs, memGet_memPut_other h0]

/-- Reset memory is in canonical form. -/
theorem reset_memWf : memWf State.reset.mem = true := rfl

/-- Placing a word keeps the canonical form. -/
theorem placeWord_memWf (s : State) (w : InstrWord) (h : memWf s.mem = true) : memWf (s.placeWord w).mem = true :=
  putBytes_wf _ _ h

/-- Launching a program keeps the canonical form. -/
theorem launch_memWf (s : State) (base : Word) (program : List InstrWord) (h : memWf s.mem = true) :
    memWf (s.launch base program).mem = true :=
  putBytes_wf _ _ h

end Sys2Proof.Machine
end

