-- ==== Sys2Proof/Laws/PerInstr.lean ====
section
/-! SUPPORT. Statements for all instructions, one lemma per constructor. -/

namespace Sys2Proof.Laws

/-- An instruction's assembler line is well formed, and assembling it gives the instruction back (30_encoding.md R75). -/
def AsmLineReadsBack.Statement (i : Instr) : Prop := i.wellFormed = true ∧ assemble i.asm = some i

/-- A base register's name exists and reads back. -/
theorem base_asm (b : Base) : b.asm.named = true ∧ b.asm.base? = some b := by
  cases b with
  | x n =>
    have : n.val ≤ 30 := by omega
    simp [Base.asm, AsmBase.named, AsmBase.base?, this]
  | sp => exact ⟨rfl, rfl⟩

/-- A register number in its range reads back. -/
theorem fin?_val {n : Nat} (r : Fin n) : fin? n r.val = some r := by
  simp [fin?]

/-- Every vector register number has a name. -/
theorem reg_named (r : Fin 32) : r.val ≤ 31 := by omega

/-- Every governing predicate number has a name. -/
theorem pred_named (g : Fin 8) : g.val ≤ 7 := by omega

theorem AsmLineReadsBack.ldff1h32Scaled (zt : Fin 32) (pg : Fin 8) (rn : Base) (zm : Fin 32) (mod : Mod) :
    AsmLineReadsBack.Statement (.ldff1h32Scaled zt pg rn zm mod) := by
  cases mod <;>
    simp [Statement, Instr.wellFormed, AsmLine.wellFormed, AsmLine.endsAsListed, Instr.asm, Mod.asm, assemble, fin?_val,
      reg_named, pred_named, base_asm rn]

theorem AsmLineReadsBack.ldff1h32UnpackedScaled (zt : Fin 32) (pg : Fin 8) (rn : Base) (zm : Fin 32) (mod : Mod) :
    AsmLineReadsBack.Statement (.ldff1h32UnpackedScaled zt pg rn zm mod) := by
  cases mod <;>
    simp [Statement, Instr.wellFormed, AsmLine.wellFormed, AsmLine.endsAsListed, Instr.asm, Mod.asm, assemble, fin?_val,
      reg_named, pred_named, base_asm rn]

theorem AsmLineReadsBack.ldff1h32UnpackedUnscaled (zt : Fin 32) (pg : Fin 8) (rn : Base) (zm : Fin 32) (mod : Mod) :
    AsmLineReadsBack.Statement (.ldff1h32UnpackedUnscaled zt pg rn zm mod) := by
  cases mod <;>
    simp [Statement, Instr.wellFormed, AsmLine.wellFormed, AsmLine.endsAsListed, Instr.asm, Mod.asm, assemble, fin?_val,
      reg_named, pred_named, base_asm rn]

theorem AsmLineReadsBack.ldff1h32Unscaled (zt : Fin 32) (pg : Fin 8) (rn : Base) (zm : Fin 32) (mod : Mod) :
    AsmLineReadsBack.Statement (.ldff1h32Unscaled zt pg rn zm mod) := by
  cases mod <;>
    simp [Statement, Instr.wellFormed, AsmLine.wellFormed, AsmLine.endsAsListed, Instr.asm, Mod.asm, assemble, fin?_val,
      reg_named, pred_named, base_asm rn]

theorem AsmLineReadsBack.ldff1h64Scaled (zt : Fin 32) (pg : Fin 8) (rn : Base) (zm : Fin 32) :
    AsmLineReadsBack.Statement (.ldff1h64Scaled zt pg rn zm) := by
  simp [Statement, Instr.wellFormed, AsmLine.wellFormed, AsmLine.endsAsListed, Instr.asm, assemble, fin?_val, reg_named,
    pred_named, base_asm rn]

theorem AsmLineReadsBack.ldff1h64Unscaled (zt : Fin 32) (pg : Fin 8) (rn : Base) (zm : Fin 32) :
    AsmLineReadsBack.Statement (.ldff1h64Unscaled zt pg rn zm) := by
  simp [Statement, Instr.wellFormed, AsmLine.wellFormed, AsmLine.endsAsListed, Instr.asm, assemble, fin?_val, reg_named,
    pred_named, base_asm rn]

end Sys2Proof.Laws
end

