-- ==== Sys2Proof/Laws/Safety.lean ====
section
/-! SUPPORT. The terms of Safety in the words of the loop, so that a claim's hypothesis meets the loop's lemmas. -/

namespace Sys2Proof.Machine

/-- An instruction that enters its loop passes every check before it, under every draw (40 R86 steps 1, 2 and 4). -/
theorem entersLoop_checks {s : State} {i : Instr} (d : Draws) (h : s.entersLoop i = true) :
    vlOk s.vl = true ∧ s.accessCheck (encode i) = none ∧ s.spCheckFails d i = false := by
  simp only [State.entersLoop, Bool.and_eq_true] at h
  obtain ⟨⟨hv, hu⟩, hsp⟩ := h
  refine ⟨hv, ?_, ?_⟩
  · rw [accessCheck_none]
    simp only [State.sveUsable, Bool.and_eq_true, Bool.or_eq_true, Bool.not_eq_true'] at hu
    refine ⟨hu.1.1, hu.1.2, fun hs => ?_⟩
    rcases hu.2 with h | h
    · simp [hs] at h
    · exact h
  · unfold State.spCheckFails
    unfold State.spUsable at hsp
    cases hr : (i.rn == Base.sp) <;> cases hm : s.spMisaligned <;> simp_all

/-- An existing element is active by its predicate bit (00_scope.md R12). -/
theorem active_eq {s : State} {i : Instr} {e : Nat} (h : e < elementCount s.vl (constsOf i)) :
    s.active i e = activeElement (s.pReg i.pg) e (constsOf i).esize := by
  simp [State.active, State.elements, h]

/-- The first active element in the loop's words (40 R93). -/
theorem isFirst_iff {s : State} {i : Instr} {f : Nat} :
    s.isFirst i f = true ↔ f < elementCount s.vl (constsOf i) ∧
      activeElement (s.pReg i.pg) f (constsOf i).esize = true ∧ activeBelow (s.gather i) f = false := by
  unfold State.isFirst
  by_cases hf : f < elementCount s.vl (constsOf i)
  · rw [active_eq hf]
    simp only [hf, true_and, Bool.and_eq_true, List.all_eq_true, Bool.not_eq_true', activeBelow, List.any_eq_false,
      gather_mask, gather_consts]
    refine and_congr_right fun _ => forall_congr' fun e => forall_congr' fun he => ?_
    have he' : e < elementCount s.vl (constsOf i) := Nat.lt_trans (List.mem_range.mp he) hf
    rw [active_eq he']
    simp
  · simp [State.active, State.elements, hf]

theorem ffrFalseUpTo_eq {s : State} {i : Instr} {e : Nat} :
    s.ffrFalseUpTo i e = ffrFalseBelow s.ffr (constsOf i).esize (e + 1) := rfl

theorem gather_addressOf {s : State} {i : Instr} {e : Nat} : (s.gather i).addressOf e = s.addressOf i e := rfl

/-- An active element is the first exactly when none below it is active (40 R93). -/
theorem isFirst_eq_activeBelow {s : State} {i : Instr} {e : Nat} (he : e < elementCount s.vl (constsOf i))
    (ha : s.active i e = true) : s.isFirst i e = !activeBelow (s.gather i) e := by
  rw [Bool.eq_iff_iff, isFirst_iff, ← active_eq he]
  simp [he, ha]

/-- The access of an element in the words of Safety: none, one that reports a fault, or one read by the primitive of its
place (40 R93 to R95). -/
theorem accessAt_eq {s : State} {d : Draws} {i : Instr} {e : Nat} (he : e < elementCount s.vl (constsOf i)) :
    accessAt s d (s.gather i) e =
      if s.active i e then
        if s.reportsFault d i e then ⟨d.nfData e, true, []⟩
        else ⟨s.memValue d (s.addressOf i e), false,
          [⟨e, s.addressOf i e, if s.isFirst i e then .faulting else .nonFaulting⟩]⟩
      else ⟨0, false, []⟩ := by
  unfold accessAt
  rw [gather_mask, gather_consts, ← active_eq he]
  cases ha : s.active i e with
  | false => simp
  | true =>
    have hfirst := isFirst_eq_activeBelow he ha
    have hperf : s.reportsFault d i e = (activeBelow (s.gather i) e && !s.nfPerforms d e (s.addressOf i e)) := by
      simp [State.reportsFault, State.nfPerforms, ha, hfirst]
    rw [hperf, hfirst, gather_addressOf]
    cases activeBelow (s.gather i) e <;> cases s.nfPerforms d e (s.addressOf i e) <;> rfl

/-- The fault an element's access reports. -/
theorem accessAt_fault {s : State} {d : Draws} {i : Instr} {e : Nat} (he : e < elementCount s.vl (constsOf i)) :
    (accessAt s d (s.gather i) e).fault = s.reportsFault d i e := by
  rw [accessAt_eq he]
  cases ha : s.active i e with
  | false => simp [State.reportsFault, ha]
  | true => cases s.reportsFault d i e <;> rfl

/-- A fault has been reported below element `n` (40 R96). -/
theorem faultedBelow_eq {s : State} {d : Draws} {i : Instr} {n : Nat} (hn : n ≤ elementCount s.vl (constsOf i)) :
    faultedBelow s d (s.gather i) n = (List.range n).any (s.reportsFault d i) := by
  rw [faultedBelow, Bool.eq_iff_iff, List.any_eq_true, List.any_eq_true]
  refine exists_congr fun e => and_congr_right fun he => ?_
  rw [accessAt_fault (Nat.lt_of_lt_of_le (List.mem_range.mp he) hn)]

/-- A completion under the draws leaves what the loop leaves. -/
theorem completesAs_finish {s t : State} {i : Instr} {d : Draws} (h : s.completesAs i d t) :
    vlOk s.vl = true ∧ ∃ l, LoopAt s d (s.gather i) s.ffr (elementCount s.vl (constsOf i)) l ∧
      t = s.finish i.zt l.result l.ffr l.reads := by
  obtain ⟨h | ⟨rfl, h⟩, hpc⟩ := h
  · exact ldff1h_completed h hpc
  · exact ldff1h_completed (exec_eq_ldff1h i s ▸ h) hpc

/-- When the first active element can be read, the loop returns, with everything its description says. -/
theorem loop_returns {s : State} {i : Instr} (d : Draws) (hv : vlOk s.vl = true) (h : s.firstReadable i = true) :
    ∃ l, elementLoop s d (s.gather i) (elementCount s.vl (constsOf i)) 0 (Loop.start s.ffr) = .ok l ∧
      LoopAt s d (s.gather i) s.ffr (elementCount s.vl (constsOf i)) l := by
  apply elementLoop_total (esize_group_pos i) (Nat.le_of_eq (elements_cover hv i))
  intro f hf ha hb
  have := List.all_eq_true.mp h f (List.mem_range.mpr hf)
  rw [isFirst_iff.mpr ⟨hf, ha, hb⟩] at this
  have hread : s.memStop (s.addressOf i f) = none := by simpa using this
  exact hread

end Sys2Proof.Machine
end

