-- ==== Sys2Proof/Laws/Step.lean ====
section
/-! SUPPORT. Everything one step can do. -/

namespace Sys2Proof.Machine

/-- What stops a fetch: a misaligned `pc`, an aborting byte, or a Device byte (60 R126, 20_memory.md R43). -/
theorem fetch_error_cases {s : State} {st : Stop} (h : fetch s = .error st) :
    (s.pcAligned = false ∧ st = .raise (.pcAlignment s.pc)) ∨
      (s.pcAligned = true ∧ ∃ x, s.fetchAbort = some x ∧ st = .raise x) ∨
      (s.pcAligned = true ∧ s.fetchAbort = none ∧ s.fetchDevice = true ∧ st = .refuse .fetchFromDevice) := by
  unfold fetch at h
  cases hp : s.pcAligned with
  | false =>
    left
    simpa [hp, eq_comm] using h
  | true =>
    right
    simp only [hp, Bool.not_true, Bool.false_eq_true, if_false] at h
    split at h
    · next x hx =>
      left
      exact ⟨rfl, x, hx, by simpa [eq_comm] using h⟩
    · next hx =>
      right
      split at h
      · next hd => exact ⟨rfl, hx, hd, by simpa [eq_comm] using h⟩
      · simp at h

/-- A fetch that returns gives the word at `pc`. -/
theorem fetch_ok {s : State} {w : InstrWord} (h : fetch s = .ok w) :
    s.pcAligned = true ∧ s.fetchAbort = none ∧ s.fetchDevice = false ∧ w = s.wordAtPc := by
  unfold fetch at h
  cases hp : s.pcAligned with
  | false => simp [hp] at h
  | true =>
    simp only [hp, Bool.not_true, Bool.false_eq_true, if_false] at h
    split at h
    · simp at h
    · next hx =>
      split at h
      · simp at h
      · next hd => exact ⟨rfl, hx, by simpa using hd, by simpa [eq_comm] using h⟩

theorem endCheck_eq_next {r : Result} {u : State} :
    endCheck r = .next u ↔ ∃ t, r = .next t ∧ u = if t.atEnd then t.endRun else t := by
  cases r with
  | next t => simp only [endCheck, Host.Outcome.next.injEq, exists_eq_left', eq_comm]
  | fault f => simp [endCheck]
  | refused r => simp [endCheck]

/-- Everything a step that answers a next state can have done: a fetch exception, or an execution of the decoded
instruction followed by the end-of-run test. -/
theorem step_next_cases {s u : State} (h : step s = .next u) :
    s.status = .running ∧ vlOk s.vl = true ∧
      ((∃ x, fetch s = .error (.raise x) ∧ u = s.trap x) ∨
        ∃ i t, s.pcAligned = true ∧ decodeWord s.wordAtPc = .ok i ∧ exec i s = .next t ∧
          u = if t.atEnd then t.endRun else t) := by
  unfold step at h
  split at h
  · simp at h
  · simp at h
  · next hs =>
    split at h
    · simp at h
    · next hv =>
      refine ⟨hs, by simpa using hv, ?_⟩
      split at h
      · next st hst =>
        left
        obtain ⟨x, rfl, rfl⟩ := stopWith_eq_next.mp h
        exact ⟨x, hst, rfl⟩
      · next w hw =>
        right
        obtain ⟨hp, _, _, rfl⟩ := fetch_ok hw
        split at h
        · next i hi =>
          obtain ⟨t, ht, rfl⟩ := endCheck_eq_next.mp h
          exact ⟨i, t, hp, hi, ht, rfl⟩
        · simp at h

end Sys2Proof.Machine
end

