-- ==== Sys2Proof/Tests/Slice0.lean ====
section
/-! SUPPORT. Tests of single steps on small states, decoding of words written out from 30_encoding.md, the WellFormed smoke
test, and a witness for every statement that has hypotheses. Expected values are those of spec/95_test_vectors.md. -/

namespace Sys2Proof.Tests

open Sys2Proof.Machine

/-! ## Well-formed lines (30_encoding.md R75, R76) -/

/-- `LDFF1H Z0.S, P0/Z, [X1, Z2.S, SXTW #1]`, the line of 95_test_vectors.md V1. -/
def goodLine : AsmLine := ⟨0, .s, 0, .x 1, 2, .s, some .sxtw, some 1⟩

theorem test_line_well_formed : goodLine.wellFormed = true := by decide
theorem test_line_no_register_z32 : { goodLine with zt := 32 }.wellFormed = false := by decide
theorem test_line_no_predicate_p8 : { goodLine with pg := 8 }.wellFormed = false := by decide
theorem test_line_no_base_x31 : { goodLine with base := .x 31 }.wellFormed = false := by decide
theorem test_line_no_offsets_z32 : { goodLine with zm := 32 }.wellFormed = false := by decide
theorem test_line_suffixes_differ : { goodLine with zmSuffix := .d }.wellFormed = false := by decide
theorem test_line_s_with_lsl : { goodLine with specifier := some .lsl }.wellFormed = false := by decide
theorem test_line_s_without_specifier :
    { goodLine with specifier := none, amount := none }.wellFormed = false := by decide
theorem test_line_shift_by_2 : { goodLine with amount := some 2 }.wellFormed = false := by decide

/-! ## Decoding: words written out bit by bit from the patterns of 30_encoding.md R63 to R68 -/

theorem test_decode_32_scaled : decodeWord 0b1000010_0_1_1_1_00010_0_1_1_000_00001_00000 =
    .ok (.ldff1h32Scaled 0 0 (.x 1) 2 .sxtw) := by decide
theorem test_decode_32_unpacked_scaled : decodeWord 0b1100010_0_1_0_1_00000_0_1_1_010_01010_10101 =
    .ok (.ldff1h32UnpackedScaled 21 2 (.x 10) 0 .uxtw) := by decide
theorem test_decode_32_unpacked_unscaled : decodeWord 0b1100010_0_1_1_0_10001_0_1_1_101_11111_00011 =
    .ok (.ldff1h32UnpackedUnscaled 3 5 .sp 17 .sxtw) := by decide
theorem test_decode_32_unscaled : decodeWord 0b1000010_0_1_0_0_00010_0_1_1_000_00001_00111 =
    .ok (.ldff1h32Unscaled 7 0 (.x 1) 2 .uxtw) := by decide
theorem test_decode_64_scaled : decodeWord 0b1100010_0_1_1_1_11110_1_1_1_111_11111_11111 =
    .ok (.ldff1h64Scaled 31 7 .sp 30) := by decide
theorem test_decode_64_unscaled : decodeWord 0b1100010_0_1_1_0_11111_1_1_1_111_11110_11111 =
    .ok (.ldff1h64Unscaled 31 7 (.x 30) 31) := by decide

/-- T1's bytes, then one more byte that is left. -/
theorem test_decode_bytes : decode [0x00, 0x60, 0xA0, 0x84, 0x55] =
    .ok (.ldff1h32Scaled 0 0 (.x 0) 0 .uxtw, [0x55]) := by decide

/-- T3 and T20 of 95_test_vectors.md. -/
theorem test_encode : encode (.ldff1h32Scaled 3 5 .sp 17 .sxtw) = 0x84F177E3 ∧
    encode (.ldff1h64Scaled 21 2 (.x 10) 0) = 0xC4E0E955 := by decide

/-- T25 to T34: one fixed bit away from a class, or far from all. -/
theorem test_neighbours_refused :
    ([0x84A04000, 0x84A02000, 0x84A0E000, 0x85206000, 0x84206000, 0xC4A0E000, 0xC460E000, 0xA4A06000, 0, 0xD503201F] :
      List InstrWord).all (fun w => decodeWord w == .error (.notInSource w)) = true := by decide

theorem test_table_word : decodeTableWord 32 0xC4DFFFFF = some (.ldff1h64Unscaled 31 7 .sp 31) := by decide

/-! ## Single executions (95_test_vectors.md section 3) -/

/-- The bytes of M, from `0x0FFE`. -/
def memM : List Host.Cell :=
  putBytes [] 0xFFE [0xFE, 0xCA, 0xEF, 0xBE, 0x34, 0x12, 0x01, 0x80, 0xFF, 0x00, 0xFF, 0xFF, 0x0B, 0x0A, 0xFF, 0x7F, 0x01, 0x00]

/-- The common setting with FFR all ones: reads outside M abort. -/
def common : State :=
  { State.reset with
    ffr := 0xFFFF
    pc := 0x4000
    mem := memM
    map := [⟨0xFFE, 18, .read, .okNormal⟩, ⟨0, 2 ^ 64, .read, .abort "translation"⟩] }

def withX (s : State) (n : Fin 31) (v : Word) : State := { s with x := s.x.set n.val v }
def withZ (s : State) (r : Fin 32) (v : Nat) : State := { s with z := s.z.set r.val (BitVec.ofNat _ v) }
def withP (s : State) (g : Fin 16) (v : Nat) : State := { s with p := s.p.set g.val (BitVec.ofNat _ v) }

/-- Every access performed that may be; data and zero for the elements listed, else merge. -/
def drawsOf (data zero : List Nat) : Draws where
  cuSpCheck := false
  nfPerform := fun _ => true
  nfData := fun _ => 0xAAAA
  cuData := fun e => data.contains e
  cuZero := fun e => zero.contains e
  deviceByte := fun _ => 0xD0

/-- The destination, FFR and `pc` after. -/
def after (i : Instr) (r : Result) : Option (Nat × Nat × Nat) :=
  match r with
  | .next t => some ((t.zReg i.zt).toNat, t.ffr.toNat, t.pc.toNat)
  | _ => none

/-- The status after. -/
def statusOf (r : Result) : Option RunStatus :=
  match r with
  | .next t => some t.status
  | _ => none

/-- V1 -/
theorem test_32_scaled_sxtw :
    let i := Instr.ldff1h32Scaled 0 0 (.x 1) 2 .sxtw
    after i (ldff1h i (drawsOf [] [])
      (withP (withZ (withX common 1 0x1000) 2 0xFFFFFFFF000000020000000100000000) 0 0x1111)) =
      some (0x0000CAFE00008001000012340000BEEF, 0xFFFF, 0x4004) := by decide

/-- V15: a suppressed fault of element 1, zeroed; elements 2 and 3 keep their data. -/
theorem test_32_scaled_suppressed :
    let i := Instr.ldff1h32Scaled 0 0 (.x 1) 2 .uxtw
    after i (ldff1h i (drawsOf [2, 3] [1])
      (withP (withZ (withZ (withX common 1 0x1000) 2 0x00000003000000020000080000000000) 0
        0x44444444333333332222222211111111) 0 0x1111)) =
      some (0x000000FF00008001000000000000BEEF, 0x000F, 0x4004) := by decide

/-- V2 -/
theorem test_32_unpacked_scaled_sxtw :
    let i := Instr.ldff1h32UnpackedScaled 5 1 (.x 3) 4 .sxtw
    after i (ldff1h i (drawsOf [] [])
      (withP (withZ (withX common 3 0x1004) 4 0x00000001FFFFFFFEDEADBEEF00000002) 1 0x0101)) =
      some (0x000000000000BEEF000000000000FFFF, 0xFFFF, 0x4004) := by decide

/-- V8: the first active element aborts. -/
theorem test_32_unpacked_scaled_abort :
    statusOf (ldff1h (.ldff1h32UnpackedScaled 5 1 (.x 3) 4 .uxtw) (drawsOf [] [])
      (withP (withZ (withX common 3 0x1010) 4 0x7FFFFFFF0000000400000000FFFFFFF8) 1 0x0001)) =
      some (.trapped (.dataAbort (.verdict "translation") 0x200001000)) := by decide

/-- V3 -/
theorem test_32_unpacked_unscaled_uxtw :
    let i := Instr.ldff1h32UnpackedUnscaled 5 1 (.x 3) 4 .uxtw
    after i (ldff1h i (drawsOf [] [])
      (withP (withZ (withX common 3 0x1000) 4 0x000000000000000CFFFFFFFF00000006) 1 0x0101)) =
      some (0x0000000000007FFF00000000000000FF, 0xFFFF, 0x4004) := by decide

/-- V9 -/
theorem test_32_unpacked_unscaled_sxtw :
    let i := Instr.ldff1h32UnpackedUnscaled 5 1 (.x 3) 4 .sxtw
    after i (ldff1h i (drawsOf [] [])
      (withP (withZ (withX common 3 0x1008) 4 0x7FFFFFFF0000000400000000FFFFFFF8) 1 0x0101)) =
      some (0x0000000000007FFF000000000000BEEF, 0xFFFF, 0x4004) := by decide

/-- V4: a misaligned element and an inactive one. -/
theorem test_32_unscaled_misaligned :
    let i := Instr.ldff1h32Unscaled 7 0 (.x 1) 2 .sxtw
    after i (ldff1h i (drawsOf [] [])
      (withP (withZ (withX common 1 0x1008) 2 0x000000060000000000000001FFFFFFF8) 0 0x1011)) =
      some (0x000000010000000000000BFF0000BEEF, 0xFFFF, 0x4004) := by decide

/-- V50: alignment enforced. -/
theorem test_32_unscaled_alignment :
    statusOf (ldff1h (.ldff1h32Unscaled 7 0 (.x 1) 2 .uxtw) (drawsOf [] [])
      { withP (withZ (withX common 1 0x1000) 2 0x00000006000000040000000200000001) 0 0x1111 with
        alignEnforced := true }) =
      some (.trapped (.dataAbort .alignment 0x1001)) := by decide

/-- V5: SP as base, and the product wraps. -/
theorem test_64_scaled_wrap :
    let i := Instr.ldff1h64Scaled 31 7 .sp 30
    after i (ldff1h i (drawsOf [] [])
      { withP (withZ common 30 0x80000000000000000000000000000007) 7 0xFFFF with sp := 0x1000 }) =
      some (0x000000000000BEEF0000000000000001, 0xFFFF, 0x4004) := by decide

/-- V35, with the word of V5: SP not a multiple of 16. -/
theorem test_64_scaled_sp :
    statusOf (ldff1h (.ldff1h64Scaled 31 7 .sp 30) (drawsOf [] [])
      { withP (withZ common 30 0) 7 0xFFFF with sp := 0x1008 }) = some (.trapped .spAlignmentFault) := by decide

/-- V6: destination and offsets the same register. -/
theorem test_64_unscaled_same_register :
    let i := Instr.ldff1h64Unscaled 31 7 (.x 30) 31
    after i (ldff1h i (drawsOf [] [])
      (withP (withZ (withX common 30 0x100A) 31 0x0000000000000002FFFFFFFFFFFFFFF6) 7 0x0101)) =
      some (0x0000000000007FFF000000000000BEEF, 0xFFFF, 0x4004) := by decide

/-- V57: a later element at address `2^64 - 1` is a reported fault, not a refusal. -/
theorem test_64_unscaled_address_wrap :
    let i := Instr.ldff1h64Unscaled 0 0 (.x 0) 0
    after i (ldff1h i (drawsOf [] [])
      (withP (withZ (withX common 0 0x1000) 0 0xFFFFFFFFFFFFEFFF0000000000000000) 0 0x0101)) =
      some (0xFFFFFFFFFFFFEFFF000000000000BEEF, 0x00FF, 0x4004) := by decide

/-! ## Witnesses: for each statement with hypotheses, a state and operands that meet them together -/

/-- The outcome is a next state with the property. -/
def answers (r : Result) (P : State → Bool) : Bool :=
  match r with
  | .next t => P t
  | _ => false

theorem answers_iff {r : Result} {P : State → Bool} : answers r P = true ↔ ∃ t, r = .next t ∧ P t = true := by
  cases r <;> simp [answers]

/-- The instruction of most witnesses. -/
def ld : Instr := .ldff1h32Scaled 0 0 (.x 1) 2 .uxtw

/-- Only element 0 is active, at `0x1000` (a halfword of M); FFR is all ones. -/
def single : State := withP (withX common 1 0x1000) 0 0x0001

/-- Elements 0 and 1 are active; element 1 is at `0x2000`, which aborts. -/
def suppressed : State := withP (withZ (withX common 1 0x1000) 2 0x0000080000000000) 0 0x0011

/-- A program of the one word of `ld`, launched where no element is active. -/
def launched : State := common.launch 0x4000 [encode ld]

theorem witness_EncodeOfDecodeIsTheWord : decodeWord (encode ld) = .ok ld := by decide
theorem witness_OperandNumbersAreFields : decodeWord 0x84FF7FFF = .ok (.ldff1h32Scaled 31 7 .sp 31 .sxtw) := by decide
theorem witness_InstructionIsFourBytes : decode (bytesOfWord (encode ld)) = .ok (ld, []) := by decide

theorem witness_StepRunsTheDecodedInstruction :
    launched.status = .running ∧ vlOk launched.vl = true ∧ launched.pcAligned = true ∧ launched.fetchable = true ∧
      decode [launched.byteAt launched.pc, launched.byteAt (launched.pc + 1), launched.byteAt (launched.pc + 2),
        launched.byteAt (launched.pc + 3)] = .ok (ld, []) := by decide

theorem witness_FetchStopsInOrder_pc :
    let s := { launched with pc := 0x4002 }
    s.status = .running ∧ vlOk s.vl = true ∧ s.pc.toNat % 4 ≠ 0 := by decide

/-- V47: the lowest aborting byte is the third. -/
theorem witness_FetchStopsInOrder_abort :
    let s := { launched with map := [⟨0x4002, 2, .fetch, .abort "c"⟩] }
    s.status = .running ∧ vlOk s.vl = true ∧ s.pc.toNat % 4 = 0 ∧
      s.verdictAt (s.pc + BitVec.ofNat 64 2) .fetch = .abort "c" ∧
      ∀ j < 2, s.verdictAt (s.pc + BitVec.ofNat 64 j) .fetch = .okNormal := by decide

theorem witness_FetchStopsInOrder_device :
    let s := { launched with map := [⟨0x4003, 1, .fetch, .okDevice⟩] }
    s.status = .running ∧ vlOk s.vl = true ∧ s.pc.toNat % 4 = 0 ∧
      (∀ j < 3, s.verdictAt (s.pc + BitVec.ofNat 64 j) .fetch = .okNormal) ∧
      s.verdictAt (s.pc + BitVec.ofNat 64 3) .fetch = .okDevice := by decide

theorem witness_FetchStopsInOrder_word :
    let s := common.launch 0x4000 [0xD503201F]
    s.status = .running ∧ vlOk s.vl = true ∧ s.pc.toNat % 4 = 0 ∧
      (∀ j < 4, s.verdictAt (s.pc + BitVec.ofNat 64 j) .fetch = .okNormal) ∧
      decodeWord s.wordAtPc = .error (.notInSource 0xD503201F) := by decide

theorem witness_HaltedRunTakesNoStep :
    (State.reset.trap .sveAccessTrap).status = .trapped .sveAccessTrap ∧ State.reset.endRun.status = .endedWell := by
  decide

/-- A state of another vector length. -/
def ofLength (vl : Nat) : State :=
  { State.reset with
    vl := vl
    z := Vector.replicate 32 0
    p := Vector.replicate 16 0
    ffr := 0 }

theorem witness_BadVectorLengthIsRefused :
    (¬ (0 < (ofLength 0).vl ∧ (ofLength 0).vl % 64 = 0) ∧ (ofLength 0).status = .running) ∧
      ¬ (0 < (ofLength 96).vl ∧ (ofLength 96).vl % 64 = 0) ∧ (ofLength 96).status = .running := by decide

theorem witness_WithFetchWordRunsTheWord :
    vlOk State.reset.vl = true ∧ memWf State.reset.mem = true ∧ 0x84A06000 < 2 ^ 32 ∧
      decodeWord (BitVec.ofNat 32 0x84A06000) = .ok (.ldff1h32Scaled 0 0 (.x 0) 0 .uxtw) := by decide

theorem witness_LaunchedProgramIsFetched :
    memWf common.mem = true ∧ (0xFFFFFFFFFFFFFFF8 : Word).toNat % 4 = 0 ∧
      (0xFFFFFFFFFFFFFFF8 : Word).toNat + 4 * [encode ld, 0xD503201F].length ≤ 2 ^ 64 ∧
      [encode ld, 0xD503201F][1]? = some 0xD503201F := by decide

/-- A step of a one-word program completes and ends the run: 70_reset_and_hazards.md R143. -/
theorem witness_step :
    ∃ t, step launched = .next t ∧
      (decide (t.status = .endedWell) && decide (t.pc = launched.pc + 4) && t.pc.toNat == 0x4004) = true :=
  answers_iff.mp (by decide)

theorem witness_RunTakesCodeLenSteps :
    launched.status = .running ∧ launched.pc = launched.codeBase ∧ launched.codeLen = 1 ∧
      answers (Host.Core.run Sys2Proof.core 1 launched) (fun t => decide (t.status = .endedWell)) = true := by decide

theorem witness_StepKeepsTheInvariant : launched.Inv ∧ answers (step launched) (fun _ => true) = true :=
  ⟨⟨by decide, by decide, trivial⟩, by decide⟩

theorem witness_PcStaysAligned :
    launched.pc.toNat % 4 = 0 ∧ answers (step launched) (fun _ => true) = true := by decide

theorem witness_EnableChecksTrapInOrder :
    vlOk common.vl = true ∧ { common with haveSve := false }.haveSve = false ∧
      ({ common with sveEnabled := false }.haveSve = true ∧ { common with sveEnabled := false }.sveEnabled = false) ∧
      ({ common with streaming := true }.haveSve = true ∧ { common with streaming := true }.sveEnabled = true ∧
        { common with streaming := true }.streaming = true ∧ { common with streaming := true }.fa64Enabled = false) := by
  decide

/-- The base of V35, with one active element. -/
def spState : State := { withP common 0 0x0001 with sp := 0x1008 }

theorem witness_MisalignedSpTraps :
    let i := Instr.ldff1h32Scaled 0 0 .sp 2 .uxtw
    vlOk spState.vl = true ∧ spState.sveUsable = true ∧ i.rn = .sp ∧ spState.spAlignCheck = true ∧
      spState.sp.toNat % 16 ≠ 0 ∧ spState.active i 0 = true := by decide

/-- An instruction whose predicate is all zero has no active element. -/
theorem inactive_of_zero {i : Instr} {s : State} (h : s.pReg i.pg = 0) (e : Nat) : s.active i e = false := by
  simp [State.active, activeElement, h]

theorem witness_SpCheckIsDrawnWithNoActiveElement :
    let i := Instr.ldff1h32Scaled 0 1 .sp 2 .uxtw
    vlOk spState.vl = true ∧ spState.sveUsable = true ∧ i.rn = .sp ∧ spState.spMisaligned = true ∧
      (∀ e, spState.active i e = false) ∧ spState.pcAdvances = true ∧
      ({ drawsOf [] [] with cuSpCheck := true }.cuSpCheck = true ∧ (drawsOf [] []).cuSpCheck = false) :=
  ⟨by decide, by decide, rfl, by decide, inactive_of_zero (by decide), by decide, rfl, rfl⟩

theorem witness_FirstElementAbortsInOrder_wrap :
    let s := withX single 1 (BitVec.allOnes 64)
    s.entersLoop ld = true ∧ s.isFirst ld 0 = true ∧ s.addressOf ld 0 = BitVec.allOnes 64 := by decide

theorem witness_FirstElementAbortsInOrder_enforced :
    let s := { withX single 1 0x1001 with alignEnforced := true }
    s.entersLoop ld = true ∧ s.isFirst ld 0 = true ∧ s.addressOf ld 0 = 0x1001 ∧ s.alignEnforced = true := by decide

theorem witness_FirstElementAbortsInOrder_first_byte :
    let s := withX single 1 0x2000
    s.entersLoop ld = true ∧ s.isFirst ld 0 = true ∧ s.alignEnforced = false ∧
      s.verdictAt (s.addressOf ld 0) .read = .abort "translation" := by decide

/-- The last byte of M, and the byte after it. -/
theorem witness_FirstElementAbortsInOrder_second_byte :
    let s := withX single 1 0x100F
    s.entersLoop ld = true ∧ s.isFirst ld 0 = true ∧ s.alignEnforced = false ∧
      s.verdictAt (s.addressOf ld 0) .read = .okNormal ∧
      s.verdictAt (s.addressOf ld 0 + 1) .read = .abort "translation" := by decide

/-- V55 -/
theorem witness_FirstElementAbortsInOrder_device :
    let s := { withX single 1 0x1003 with map := [⟨0x1004, 2, .read, .okDevice⟩] }
    s.entersLoop ld = true ∧ s.isFirst ld 0 = true ∧ s.alignEnforced = false ∧
      s.verdictAt (s.addressOf ld 0) .read = .okNormal ∧ s.verdictAt (s.addressOf ld 0 + 1) .read = .okDevice := by
  decide

theorem witness_CompletionAtTheTopIsRefused :
    let s := { single with pc := 0xFFFFFFFFFFFFFFFC }
    vlOk s.vl = true ∧ s.sveUsable = true ∧ ld.rn ≠ .sp ∧ s.firstReadable ld = true ∧ s.pc.toNat = 2 ^ 64 - 4 := by
  decide

/-- The base of V35 misaligned, no element active, the check not drawn: only the completion at the top is in the way. -/
theorem witness_CompletionAtTheTopIsRefused_sp :
    let s := { spState with pc := 0xFFFFFFFFFFFFFFFC }
    let i := Instr.ldff1h32Scaled 0 1 .sp 2 .uxtw
    vlOk s.vl = true ∧ s.sveUsable = true ∧ s.spMisaligned = true ∧ s.spPasses (drawsOf [] []) i ∧
      s.firstReadable i = true ∧ s.pc.toNat = 2 ^ 64 - 4 :=
  ⟨by decide, by decide, by decide, fun _ _ => ⟨inactive_of_zero (by decide), rfl⟩, by decide, by decide⟩

theorem witness_ReadyInstructionCompletes : suppressed.readyFor ld = true := by decide

/-- The destination of each class after one active element at `0x1000`, FFR all ones: the state meets the hypotheses of
the class's statement, whose clauses speak of the active element 0 and of the inactive element 1. -/
def loadsOne (i : Instr) : Bool :=
  single.readyFor i && (single.pReg i.pg).getLsbD 0 && !single.touchesDevice (single.addressOf i 0) &&
    !(single.pReg i.pg).getLsbD ((constsOf i).esize / 8) &&
    answers (exec i single) fun t =>
      t.ffr.getLsbD 0 && t.ffr.getLsbD ((constsOf i).esize / 8) && ((t.zReg i.zt).toNat == 0xBEEF)

theorem witness_Loads32Scaled : loadsOne (.ldff1h32Scaled 0 0 (.x 1) 2 .sxtw) = true := by decide
theorem witness_Loads32UnpackedScaled : loadsOne (.ldff1h32UnpackedScaled 0 0 (.x 1) 2 .uxtw) = true := by decide
theorem witness_Loads32UnpackedUnscaled : loadsOne (.ldff1h32UnpackedUnscaled 0 0 (.x 1) 2 .sxtw) = true := by decide
theorem witness_Loads32Unscaled : loadsOne (.ldff1h32Unscaled 0 0 (.x 1) 2 .uxtw) = true := by decide
theorem witness_Loads64Scaled : loadsOne (.ldff1h64Scaled 0 0 (.x 1) 2) = true := by decide
theorem witness_Loads64Unscaled : loadsOne (.ldff1h64Unscaled 0 0 (.x 1) 2) = true := by decide

/-- A completed execution whose element 0 is the first active one and definite, and whose element 1 is unknown: the
hypotheses of the statements on frames and on first-fault behaviour. -/
theorem witness_first_fault :
    ∃ t, exec ld suppressed = .next t ∧
      (decide (t.pc = suppressed.pc + 4) && !t.ffrFalseUpTo ld 0 && t.ffrFalseUpTo ld 1 &&
        decide (1 < suppressed.elements ld) && suppressed.isFirst ld 0 && !suppressed.ffrFalseUpTo ld 0) = true :=
  answers_iff.mp (by decide)

/-- A completion under explicit draws. -/
theorem completesAs_of_ldff1h {i : Instr} {d : Draws} {s : State} {P : State → Bool}
    (h : answers (ldff1h i d s) (fun t => decide (t.pc = s.pc + 4) && P t) = true) :
    ∃ t, s.completesAs i d t ∧ P t = true := by
  obtain ⟨t, ht, hP⟩ := answers_iff.mp h
  rw [Bool.and_eq_true, decide_eq_true_eq] at hP
  exact ⟨t, ⟨.inl ht, hP.1⟩, hP.2⟩

/-- Both cases of `k`: a fault reported at element 1, and none. -/
theorem witness_FfrLosesASuffix :
    ((∃ t, suppressed.completesAs ld (drawsOf [] []) t ∧ decide (t.ffr.toNat = 0x000F) = true) ∧
        suppressed.reportsFault (drawsOf [] []) ld 1 = true) ∧
      (∃ t, single.completesAs ld (drawsOf [] []) t ∧ decide (t.ffr.toNat = 0xFFFF) = true) ∧
        ∀ e < 4, single.reportsFault (drawsOf [] []) ld e = false :=
  ⟨⟨completesAs_of_ldff1h (by decide), by decide⟩, completesAs_of_ldff1h (by decide), by decide⟩

/-- The memory and offsets of V15, all four elements active: element 1 reports a fault and is zeroed, element 2 keeps its
data, element 3 its old value. -/
theorem witness_UnknownElementsAreOldZeroOrData :
    let s := withP (withZ (withZ (withX common 1 0x1000) 2 0x00000003000000020000080000000000) 0
      0x44444444333333332222222211111111) 0 0x1111
    let d := drawsOf [2] [1]
    (∃ t, s.completesAs ld d t ∧ (t.ffrFalseUpTo ld 1 && t.ffrFalseUpTo ld 2 && t.ffrFalseUpTo ld 3 &&
        decide ((t.zReg 0).toNat = 0x4444444400008001000000000000BEEF)) = true) ∧
      s.elements ld = 4 ∧ s.reportsFault d ld 1 = true ∧ s.reportsFault d ld 2 = false ∧
      s.reportsFault d ld 3 = false :=
  ⟨completesAs_of_ldff1h (by decide), by decide, by decide, by decide, by decide⟩

/-- Elements 0 and 1 both at `0x1000`. -/
def double : State := withP (withX common 1 0x1000) 0 0x0011

theorem witness_PerformedReadsAreExact :
    double.readyFor ld = true ∧ double.ffrAllOnes ld = true ∧ double.active ld 1 = true ∧
      double.isFirst ld 1 = false ∧
      ∀ e, double.active ld e = true → double.isFirst ld e = false →
        double.memStop (double.addressOf ld e) = none ∧ double.touchesDevice (double.addressOf ld e) = false ∧
          (drawsOf [] []).nfPerform e = true := by
  refine ⟨by decide, by decide, by decide, by decide, fun e ha _ => ?_⟩
  have h : ∀ e < 4, double.active ld e = true →
      double.memStop (double.addressOf ld e) = none ∧ double.touchesDevice (double.addressOf ld e) = false := by decide
  by_cases hlt : e < 4
  · exact ⟨(h e hlt ha).1, (h e hlt ha).2, rfl⟩
  · have : double.elements ld = 4 := by decide
    simp [State.active, this, hlt] at ha

theorem witness_LaterFaultsAreSuppressed :
    suppressed.readyFor ld = true ∧ suppressed.active ld 1 = true ∧ suppressed.isFirst ld 1 = false ∧
      suppressed.memStop (suppressed.addressOf ld 1) ≠ none := by decide

theorem witness_LaterFaultsAreSuppressed_device :
    let s := { withZ suppressed 2 0x00000001_00000000 with map := [⟨0x1002, 2, .read, .okDevice⟩] }
    s.readyFor ld = true ∧ s.active ld 1 = true ∧ s.isFirst ld 1 = false ∧
      s.touchesDevice (s.addressOf ld 1) = true := by decide

theorem witness_NoActiveElementIsExact :
    common.entersLoop ld = true ∧ common.pcAdvances = true ∧ (∀ e, common.active ld e = false) ∧
      common.ffrAllOnes ld = true :=
  ⟨by decide, by decide, inactive_of_zero (by decide), by decide⟩

/-- In `single` no element but the first is active. -/
theorem single_active {e : Nat} (he : e ≠ 0) : single.active ld e = false := by
  have h : ∀ e < 4, e ≠ 0 → single.active ld e = false := by decide
  by_cases hlt : e < 4
  · exact h e hlt he
  · have : single.elements ld = 4 := by decide
    simp [State.active, this, hlt]

theorem witness_SingleActiveElementIsExact :
    single.readyFor ld = true ∧ single.isFirst ld 0 = true ∧ (∀ e, e ≠ 0 → single.active ld e = false) ∧
      single.ffrAllOnes ld = true ∧ single.touchesDevice (single.addressOf ld 0) = false :=
  ⟨by decide, by decide, fun _ => single_active, by decide, by decide⟩

theorem witness_InactiveElementMakesNoAccess :
    activeElement (common.gather ld).mask 3 (common.gather ld).consts.esize = false := by decide

theorem witness_UnreadScalarRegistersDoNotMatter : ld.rn ≠ .x 2 ∧ ld.rn ≠ .sp := by decide

/-- SP as base with no active element: another SP that fails the check alike. -/
theorem witness_UnreadScalarRegistersDoNotMatter_sp :
    let i := Instr.ldff1h32Scaled 0 1 .sp 2 .uxtw
    i.rn = .sp ∧ (∀ e, spState.active i e = false) ∧ { spState with sp := 0x2004 }.spMisaligned = spState.spMisaligned :=
  ⟨rfl, inactive_of_zero (by decide), by decide⟩

theorem witness_UnreadVectorRegistersDoNotMatter : (3 : Fin 32) ≠ ld.zt ∧ (3 : Fin 32) ≠ ld.zm := by decide

/-- V31's predicate against an all-zero one: twelve bits differ, none of them governs. -/
theorem witness_OnlyGoverningPredicateBitsMatter :
    ∀ e < common.elements ld,
      activeElement (BitVec.ofNat (common.vl / 8) 0xEEEE) e (constsOf ld).esize = common.active ld e := by decide

/-- The bytes beside those of the one active element. -/
theorem witness_UnaddressedMemoryDoesNotMatter :
    single.active ld 0 = true ∧ ∀ a ∈ [0xFFF, 0x1002], ∀ e, single.active ld e = true →
      a ≠ (single.addressOf ld e).toNat ∧ a ≠ (single.addressOf ld e + 1).toNat := by
  refine ⟨by decide, fun a ha e he => ?_⟩
  by_cases h0 : e = 0
  · subst h0
    revert a
    decide
  · simp [single_active h0] at he

theorem witness_OffsetReadingsAgree :
    (constsOf (.ldff1h64Scaled 0 0 .sp 0)).offsSize = 64 ∧ (constsOf (.ldff1h32UnpackedScaled 0 0 .sp 0 .sxtw)).offsSize = 32 ∧
      ∀ j < 32, (0xDEADBEEF00000002 : BitVec 64).getLsbD j = (0x2 : BitVec 64).getLsbD j := by decide

theorem witness_DataByteOrder : single.memStop 0x1000 = none ∧ single.touchesDevice 0x1000 = false := by decide

end Sys2Proof.Tests
end

section
/-! Obligation O4: the operands of a decoded instruction are the fields of its word. -/

namespace Sys2Proof

/-- A register field as arithmetic on the word (30_encoding.md R61). -/
theorem regField_val (w : InstrWord) (lo : Nat) : (regField w lo).val = w.toNat / 2 ^ lo % 32 := by
  simp [regField, BitVec.extractLsb'_toNat, Nat.shiftRight_eq_div_pow]

/-- The predicate field as arithmetic on the word (30_encoding.md R61). -/
theorem pgField_val (w : InstrWord) : (pgField w).val = w.toNat / 1024 % 8 := by
  simp [pgField, BitVec.extractLsb'_toNat, Nat.shiftRight_eq_div_pow]

/-- Register number 31, and no other, is `SP` (30_encoding.md R71). -/
theorem Base.eq_sp_iff_number (b : Base) : b = .sp ↔ b.number.val = 31 := by
  cases b with
  | x n =>
    have hn : n.val ≠ 31 := Nat.ne_of_lt n.isLt
    simp [Base.number, hn]
  | sp => simp [Base.number]

/-- Every row of the table takes the four registers from the same fields (30_encoding.md R61). -/
theorem encodingTable_build_registers {r : EncodingRow} (hr : r ∈ encodingTable) (w : InstrWord) :
    (r.build w).zt = regField w 0 ∧ (r.build w).pg = pgField w ∧
      (r.build w).rn = .ofNumber (regField w 5) ∧ (r.build w).zm = regField w 16 := by
  simp only [encodingTable, List.mem_cons, List.not_mem_nil, or_false] at hr
  rcases hr with rfl | rfl | rfl | rfl | rfl | rfl <;> exact ⟨rfl, rfl, rfl, rfl⟩

/-- The registers of a decoded instruction are those its word names, whatever its class (00_scope.md R17). -/
theorem decodeWord_registers {w : InstrWord} {i : Instr} (h : decodeWord w = .ok i) :
    i.zt = regField w 0 ∧ i.pg = pgField w ∧ i.rn = .ofNumber (regField w 5) ∧ i.zm = regField w 16 := by
  obtain ⟨r, hr, -, rfl⟩ := decodeWord_ok h
  exact encodingTable_build_registers hr w

/-- Settles O4: all classes take their registers from the same fields, and `SP` is the base of number 31. -/
theorem operandNumbersAreFields : Obligations.OperandNumbersAreFields := by
  intro w i h
  obtain ⟨hzt, hpg, hrn, hzm⟩ := decodeWord_registers h
  have hn : i.rn.number.val = w.toNat / 32 % 32 := by
    simp [hrn, Base.number_ofNumber, regField_val]
  refine ⟨?_, hn, ?_, ?_, ?_⟩
  · simp [hzt, regField_val]
  · rw [hpg, pgField_val]
  · simp [hzm, regField_val]
  · rw [Base.eq_sp_iff_number, hn]

end Sys2Proof
end

section
/-! Obligation O3: the classes are disjoint and their instructions differ, so a row's mask and match say exactly when its
instruction is decoded. -/

namespace Sys2Proof

/-- A word belongs to at most one class (30_encoding.md R69). -/
theorem encodingTable_row_unique_of_matches {r r' : EncodingRow} (hr : r ∈ encodingTable) (hr' : r' ∈ encodingTable)
    {w : InstrWord} (h : r.matches w = true) (h' : r'.matches w = true) : r = r' := by
  have disjoint : encodingTable.Pairwise fun x y => ¬ (x.matches w = true ∧ y.matches w = true) :=
    encodingTable_disjoint.imp fun hne hxy => hne (pattern_agree hxy.1 hxy.2)
  have : Std.Symm fun x y : EncodingRow => ¬ (x.matches w = true ∧ y.matches w = true) :=
    ⟨fun _ _ hxy hyx => hxy hyx.symm⟩
  by_contra hne
  exact disjoint.forall hr hr' hne ⟨h, h'⟩

/-- Different rows build different instructions from a word: each has a constructor of its own. -/
theorem encodingTable_row_unique_of_build {r r' : EncodingRow} (hr : r ∈ encodingTable) (hr' : r' ∈ encodingTable)
    {w : InstrWord} (h : r.build w = r'.build w) : r = r' := by
  have differ : encodingTable.Pairwise fun x y => x.build w ≠ y.build w := by simp [encodingTable]
  have : Std.Symm fun x y : EncodingRow => x.build w ≠ y.build w := ⟨fun _ _ hxy => hxy.symm⟩
  by_contra hne
  exact differ.forall hr hr' hne h

/-- A word of a row's class is decoded by that row, whatever the order of the table. -/
theorem decodeWord_of_matches {r : EncodingRow} (hr : r ∈ encodingTable) {w : InstrWord} (h : r.matches w = true) :
    decodeWord w = .ok (r.build w) := by
  unfold decodeWord
  split
  · next r' hr' =>
    have hmatch : r'.matches w = true := by simpa using List.find?_some hr'
    rw [encodingTable_row_unique_of_matches (List.mem_of_find?_eq_some hr') hr hmatch h]
  · next hnone => exact absurd h (by simpa using List.find?_eq_none.mp hnone r hr)

/-- A word belongs to a row's class exactly when the row's instruction is what it decodes to (30_encoding.md R63 to R68). -/
theorem and_mask_eq_pattern_iff {r : EncodingRow} (hr : r ∈ encodingTable) (w : InstrWord) :
    w &&& r.mask = r.pattern ↔ decodeWord w = .ok (r.build w) := by
  rw [← beq_iff_eq, ← EncodingRow.matches]
  constructor
  · exact decodeWord_of_matches hr
  · intro h
    obtain ⟨r', hr', hmatch, hbuild⟩ := decodeWord_ok h
    rwa [encodingTable_row_unique_of_build hr hr' hbuild]

/-- Settles O3: each clause is `and_mask_eq_pattern_iff` at one row of the table. -/
theorem classByMaskAndMatch : Obligations.ClassByMaskAndMatch := by
  intro w
  have rows : ∀ r ∈ encodingTable, (w &&& r.mask = r.pattern ↔ decodeWord w = .ok (r.build w)) :=
    fun _ hr => and_mask_eq_pattern_iff hr w
  simpa only [encodingTable, List.forall_mem_cons, List.not_mem_nil, false_implies, implies_true, and_true] using rows

end Sys2Proof
end

section
/-! Obligation O5: an instruction is four bytes. -/

namespace Sys2Proof

/-- A word is never too short: the only rejection of a word is that it is of no class (30_encoding.md R72). -/
theorem decodeWord_ne_truncated (w : InstrWord) : decodeWord w ≠ .error .truncated := by
  unfold decodeWord
  split <;> simp

/-- Four bytes decode as their word does, and what follows them is left. -/
theorem decode_four_eq_ok_iff {b0 b1 b2 b3 : Byte} {bs rest : List Byte} {i : Instr} :
    decode (b0 :: b1 :: b2 :: b3 :: bs) = .ok (i, rest) ↔
      decodeWord (wordOfBytes b0 b1 b2 b3) = .ok i ∧ bs = rest := by
  cases h : decodeWord (wordOfBytes b0 b1 b2 b3) <;> simp [decode, h]

/-- Four bytes are enough, whatever they are. -/
theorem decode_four_ne_truncated (b0 b1 b2 b3 : Byte) (bs : List Byte) :
    decode (b0 :: b1 :: b2 :: b3 :: bs) ≠ .error .truncated := by
  have hw := decodeWord_ne_truncated (wordOfBytes b0 b1 b2 b3)
  cases h : decodeWord (wordOfBytes b0 b1 b2 b3) with
  | ok i => simp [decode, h]
  | error r => simpa [decode, h] using hw

/-- Bytes are too few to decode, or begin with the four of an instruction (30_encoding.md R60). -/
theorem truncated_or_four (bs : List Byte) :
    (bs.length < 4 ∧ decode bs = .error .truncated) ∨ ∃ b0 b1 b2 b3 rest, bs = b0 :: b1 :: b2 :: b3 :: rest :=
  match bs with
  | [] | [_] | [_, _] | [_, _, _] => .inl ⟨by simp, rfl⟩
  | b0 :: b1 :: b2 :: b3 :: rest => .inr ⟨b0, b1, b2, b3, rest, rfl⟩

/-- Settles O5: the two cases of `truncated_or_four`. -/
theorem instructionIsFourBytes : Obligations.InstructionIsFourBytes := by
  constructor
  · intro bs rest i h
    obtain ⟨-, hshort⟩ | ⟨b0, b1, b2, b3, tail, rfl⟩ := truncated_or_four bs
    · simp [hshort] at h
    · obtain ⟨-, rfl⟩ := decode_four_eq_ok_iff.mp h
      exact ⟨b0, b1, b2, b3, rfl⟩
  · intro bs
    obtain ⟨hlen, hshort⟩ | ⟨b0, b1, b2, b3, tail, rfl⟩ := truncated_or_four bs
    · simp [hlen, hshort]
    · simp [decode_four_ne_truncated]

end Sys2Proof
end

section
/-! Obligation O44: an inactive element makes no access. -/

namespace Sys2Proof
open Machine

/-- Settles O44, by the laws of the access: a stop and every answer but the empty one need an active element. -/
theorem inactiveElementMakesNoAccess : Obligations.InactiveElementMakesNoAccess := by
  intro vl s d q e first hinactive
  have hnot : activeElement q.mask e q.consts.esize ≠ true := Bool.eq_false_iff.mp hinactive
  cases ha : accessElement s d q e first with
  | error st =>
    obtain ⟨hactive, -, -⟩ := accessElement_error.mp ha
    exact absurd hactive hnot
  | ok a =>
    obtain ⟨-, rfl⟩ | ⟨hactive, -⟩ | ⟨hactive, -⟩ | ⟨hactive, -⟩ := accessElement_ok_cases ha
    · rfl
    all_goals exact absurd hactive hnot

end Sys2Proof
end

section
/-! Obligations O1 and O2: a word is its fixed bits and its operand fields, so encoding and decoding undo each other. -/

namespace Sys2Proof

/-! ## A field's value in its place -/

/-- The word that holds a field's value at bit `lo` and zeros elsewhere. -/
def placed {k : Nat} (x : BitVec k) (lo : Nat) : InstrWord := x.setWidth 32 <<< lo

theorem getLsbD_placed {k : Nat} (x : BitVec k) (lo j : Nat) :
    (placed x lo).getLsbD j = (decide (j < 32) && decide (lo ≤ j) && x.getLsbD (j - lo)) := by
  by_cases hj : j < 32
  · by_cases hlo : lo ≤ j <;> simp [placed, hj, hlo]
  · simp [placed, hj]

/-- A placed value reads back from its field. -/
theorem extractLsb'_placed_same {k lo : Nat} (x : BitVec k) (hlo : lo + k ≤ 32) :
    (placed x lo).extractLsb' lo k = x := by
  apply BitVec.eq_of_getLsbD_eq
  intro j hj
  have : lo + j < 32 := by omega
  simp only [BitVec.getLsbD_extractLsb', getLsbD_placed]
  simp [hj, this]

/-- A placed value shows in no field beside it. -/
theorem extractLsb'_placed_other {k lo lo' k' : Nat} (x : BitVec k) (h : lo + k ≤ lo' ∨ lo' + k' ≤ lo) :
    (placed x lo).extractLsb' lo' k' = 0 := by
  apply BitVec.eq_of_getLsbD_eq
  intro j hj
  simp only [BitVec.getLsbD_extractLsb', getLsbD_placed]
  rcases h with h | h
  · simp [BitVec.getLsbD_of_ge x (lo' + j - lo) (by omega)]
  · simp [show ¬ lo ≤ lo' + j by omega]

/-- A placed value shows in no bit of a mask that leaves its field out. -/
theorem placed_and_eq_zero {k lo : Nat} (x : BitVec k) {mask : InstrWord} (h : mask.extractLsb' lo k = 0) :
    placed x lo &&& mask = 0 := by
  apply BitVec.eq_of_getLsbD_eq
  intro j hj
  simp only [BitVec.getLsbD_and, getLsbD_placed]
  by_cases hlo : lo ≤ j
  · by_cases hk : j - lo < k
    · have hbit := congrArg (fun b => b.getLsbD (j - lo)) h
      have hm : mask.getLsbD j = false := by simpa [hk, hlo] using hbit
      simp [hm]
    · simp [BitVec.getLsbD_of_ge x (j - lo) (by omega)]
  · simp [hlo]

/-- A field placed back is the word's bits under the field's mask. -/
theorem placed_extractLsb' (w : InstrWord) (lo k : Nat) :
    placed (w.extractLsb' lo k) lo = w &&& placed (BitVec.allOnes k) lo := by
  apply BitVec.eq_of_getLsbD_eq
  intro j hj
  simp only [BitVec.getLsbD_and, getLsbD_placed, BitVec.getLsbD_extractLsb', BitVec.getLsbD_allOnes]
  by_cases hlo : lo ≤ j
  · simp [hj, hlo, Bool.and_comm]
  · simp [hlo]

/-- A register number placed as the encoder places it. -/
theorem ofNat_shiftLeft_eq_placed {k : Nat} (n : Fin (2 ^ k)) (lo : Nat) :
    BitVec.ofNat 32 n.val <<< lo = placed (BitVec.ofFin n) lo := by
  unfold placed
  congr 1
  apply BitVec.eq_of_toNat_eq
  simp

/-! ## The parts of a word -/

theorem fieldWord_eq_placed (pattern : InstrWord) (zt : Fin 32) (pg : Fin 8) (rn : Base) (zm : Fin 32) :
    fieldWord pattern zt pg rn zm = pattern ||| placed (BitVec.ofFin (w := 5) zm) 16 |||
      placed (BitVec.ofFin (w := 3) pg) 10 ||| placed (BitVec.ofFin (w := 5) rn.number) 5 |||
        placed (BitVec.ofFin (w := 5) zt) 0 := by
  rw [fieldWord, ← ofNat_shiftLeft_eq_placed (k := 5) zm, ← ofNat_shiftLeft_eq_placed (k := 3) pg,
   ← ofNat_shiftLeft_eq_placed (k := 5) rn.number, ← ofNat_shiftLeft_eq_placed (k := 5) zt, BitVec.shiftLeft_zero]

/-- The operand bits of every class: `Zm`, `Pg`, `Rn` and `Zt` (30_encoding.md R61). -/
def operandMask : InstrWord := 0x1F1FFF

/-- A word with no operand bit has zero in every operand field. -/
theorem extractLsb'_eq_zero_of_and_operandMask {w : InstrWord} (h : w &&& operandMask = 0) {lo k : Nat}
    (hk : operandMask.extractLsb' lo k = BitVec.allOnes k) : w.extractLsb' lo k = 0 := by
  have := congrArg (fun b => b.extractLsb' lo k) h
  simpa [BitVec.extractLsb'_and, hk] using this

/-- Operands do not touch the fixed bits. -/
theorem fieldWord_and_mask {mask : InstrWord} (h : mask &&& operandMask = 0) (pattern : InstrWord) (zt : Fin 32)
    (pg : Fin 8) (rn : Base) (zm : Fin 32) : fieldWord pattern zt pg rn zm &&& mask = pattern &&& mask := by
  have away : ∀ {lo k : Nat} (x : BitVec k), operandMask.extractLsb' lo k = BitVec.allOnes k →
      placed x lo &&& mask = 0 :=
    fun x hk => placed_and_eq_zero x (extractLsb'_eq_zero_of_and_operandMask h hk)
  simp only [fieldWord_eq_placed, BitVec.and_or_distrib_right]
  rw [away _ (by decide), away _ (by decide), away _ (by decide), away _ (by decide)]
  simp

section
variable {pattern : InstrWord} (h : pattern &&& operandMask = 0) (zt : Fin 32) (pg : Fin 8) (rn : Base) (zm : Fin 32)
include h

/-- Each register field of an encoded word holds the number it was given. -/
theorem regField_fieldWord :
    regField (fieldWord pattern zt pg rn zm) 0 = zt ∧ regField (fieldWord pattern zt pg rn zm) 5 = rn.number ∧
      regField (fieldWord pattern zt pg rn zm) 16 = zm := by
  have fixed : ∀ {lo : Nat}, operandMask.extractLsb' lo 5 = BitVec.allOnes 5 → pattern.extractLsb' lo 5 = 0 :=
    extractLsb'_eq_zero_of_and_operandMask h
  refine ⟨?_, ?_, ?_⟩ <;> apply Fin.ext <;>
    simp [regField, fieldWord_eq_placed, BitVec.extractLsb'_or, extractLsb'_placed_same, extractLsb'_placed_other,
      fixed (lo := 0) (by decide), fixed (lo := 5) (by decide), fixed (lo := 16) (by decide)]

/-- The predicate field of an encoded word holds the number it was given. -/
theorem pgField_fieldWord : pgField (fieldWord pattern zt pg rn zm) = pg := by
  apply Fin.ext
  simp [pgField, fieldWord_eq_placed, BitVec.extractLsb'_or, extractLsb'_placed_same, extractLsb'_placed_other,
    extractLsb'_eq_zero_of_and_operandMask h (lo := 10) (k := 3) (by decide)]

end

/-- The fields of a word put back into a pattern are the word's operand bits. -/
theorem fieldWord_fields (pattern w : InstrWord) :
    fieldWord pattern (regField w 0) (pgField w) (.ofNumber (regField w 5)) (regField w 16) =
      pattern ||| w &&& operandMask := by
  have hreg : ∀ lo, placed (BitVec.ofFin (w := 5) (regField w lo)) lo = w &&& placed (BitVec.allOnes 5) lo :=
    fun lo => placed_extractLsb' w lo 5
  have hpg : placed (BitVec.ofFin (w := 3) (pgField w)) 10 = w &&& placed (BitVec.allOnes 3) 10 :=
    placed_extractLsb' w 10 3
  rw [fieldWord_eq_placed, Base.number_ofNumber, hreg, hreg, hreg, hpg]
  simp only [BitVec.or_assoc, ← BitVec.and_or_distrib_left]
  rfl

/-! ## The bit of `<mod>` (30_encoding.md R76) -/

/-- An encoded `<mod>` is a bit of the pattern as the operands see it. -/
theorem fieldWord_or (pattern bit : InstrWord) (zt : Fin 32) (pg : Fin 8) (rn : Base) (zm : Fin 32) :
    fieldWord pattern zt pg rn zm ||| bit = fieldWord (pattern ||| bit) zt pg rn zm := by
  simp only [fieldWord_eq_placed, BitVec.or_assoc, BitVec.or_comm bit]

/-- Bit 22, the `xs` of the classes with 32-bit offsets. -/
def modMask : InstrWord := 0x400000

/-- The `xs` bit of the decoded `<mod>` is the word's. -/
theorem modField_bit (w : InstrWord) : (modField w).bit <<< 22 = w &&& modMask := by
  rw [show modMask = BitVec.twoPow 32 22 by decide, BitVec.and_twoPow]
  unfold modField
  split
  · rfl
  · exact BitVec.zero_shiftLeft 22

/-- `<mod>` is read from bit 22 alone. -/
theorem modField_of_and {w : InstrWord} {m : Mod} (h : w &&& modMask = m.bit <<< 22) : modField w = m := by
  have hbit := congrArg (fun b => b.getLsbD 22) h
  cases m <;> simpa [modField, modMask, Mod.bit] using hbit

/-! ## The round trips -/

/-- No row fixes an operand bit. -/
theorem encodingTable_mask_operandMask : ∀ r ∈ encodingTable, r.mask &&& operandMask = 0 := by
  decide

/-- An encoded word is decoded by the row whose fixed bits its pattern has. -/
theorem decodeWord_fieldWord {r : EncodingRow} (hr : r ∈ encodingTable) {pattern : InstrWord}
    (h : pattern &&& r.mask = r.pattern) (zt : Fin 32) (pg : Fin 8) (rn : Base) (zm : Fin 32) :
    decodeWord (fieldWord pattern zt pg rn zm) = .ok (r.build (fieldWord pattern zt pg rn zm)) := by
  rw [← and_mask_eq_pattern_iff hr, fieldWord_and_mask (encodingTable_mask_operandMask r hr), h]

/-- The round trip of a class with 64-bit offsets. -/
theorem decodeWord_fieldWord_64 {r : EncodingRow} (hr : r ∈ encodingTable) {mk : Fin 32 → Fin 8 → Base → Fin 32 → Instr}
    (hbuild : ∀ w, r.build w = mk (regField w 0) (pgField w) (.ofNumber (regField w 5)) (regField w 16))
    (hfixed : r.pattern &&& r.mask = r.pattern) (hfree : r.pattern &&& operandMask = 0)
    (zt : Fin 32) (pg : Fin 8) (rn : Base) (zm : Fin 32) :
    decodeWord (fieldWord r.pattern zt pg rn zm) = .ok (mk zt pg rn zm) := by
  obtain ⟨hzt, hrn, hzm⟩ := regField_fieldWord hfree zt pg rn zm
  rw [decodeWord_fieldWord hr hfixed, hbuild, hzt, hrn, hzm, pgField_fieldWord hfree, Base.ofNumber_number]

/-- The round trip of a class with 32-bit offsets: bit 22 is the `<mod>`, whatever the other operands. -/
theorem decodeWord_fieldWord_32 {r : EncodingRow} (hr : r ∈ encodingTable)
    {mk : Fin 32 → Fin 8 → Base → Fin 32 → Mod → Instr}
    (hbuild : ∀ w, r.build w = mk (regField w 0) (pgField w) (.ofNumber (regField w 5)) (regField w 16) (modField w))
    (m : Mod) (hfixed : (r.pattern ||| m.bit <<< 22) &&& r.mask = r.pattern)
    (hfree : (r.pattern ||| m.bit <<< 22) &&& operandMask = 0)
    (hmod : (r.pattern ||| m.bit <<< 22) &&& modMask = m.bit <<< 22)
    (zt : Fin 32) (pg : Fin 8) (rn : Base) (zm : Fin 32) :
    decodeWord (fieldWord r.pattern zt pg rn zm ||| m.bit <<< 22) = .ok (mk zt pg rn zm m) := by
  obtain ⟨hzt, hrn, hzm⟩ := regField_fieldWord hfree zt pg rn zm
  have hm : modField (fieldWord (r.pattern ||| m.bit <<< 22) zt pg rn zm) = m :=
    modField_of_and (by rw [fieldWord_and_mask (by decide), hmod])
  rw [fieldWord_or, decodeWord_fieldWord hr hfixed, hbuild, hzt, hrn, hzm, hm, pgField_fieldWord hfree,
    Base.ofNumber_number]

/-- Settles O1: each class is the round trip of its row, whose pattern leaves the operand bits free. -/
theorem decodeOfEncodeIsTheInstruction : Obligations.DecodeOfEncodeIsTheInstruction := by
  intro i
  have row : ∀ k (h : k < 6), encodingTable[k] ∈ encodingTable := fun k h => List.getElem_mem h
  cases i with
  | ldff1h32Scaled zt pg rn zm mod =>
    cases mod <;>
      exact decodeWord_fieldWord_32 (row 0 (by decide)) (fun _ => rfl) _ (by decide) (by decide) (by decide) ..
  | ldff1h32UnpackedScaled zt pg rn zm mod =>
    cases mod <;>
      exact decodeWord_fieldWord_32 (row 1 (by decide)) (fun _ => rfl) _ (by decide) (by decide) (by decide) ..
  | ldff1h32UnpackedUnscaled zt pg rn zm mod =>
    cases mod <;>
      exact decodeWord_fieldWord_32 (row 2 (by decide)) (fun _ => rfl) _ (by decide) (by decide) (by decide) ..
  | ldff1h32Unscaled zt pg rn zm mod =>
    cases mod <;>
      exact decodeWord_fieldWord_32 (row 3 (by decide)) (fun _ => rfl) _ (by decide) (by decide) (by decide) ..
  | ldff1h64Scaled zt pg rn zm =>
    exact decodeWord_fieldWord_64 (row 4 (by decide)) (fun _ => rfl) (by decide) (by decide) ..
  | ldff1h64Unscaled zt pg rn zm =>
    exact decodeWord_fieldWord_64 (row 5 (by decide)) (fun _ => rfl) (by decide) (by decide) ..

/-- What a row fixes, what the operands fill, and the bit of `<mod>` make up the word. -/
theorem or_and_operandMask_eq {mask pattern w : InstrWord} (h : w &&& mask = pattern)
    (hall : mask ||| operandMask = BitVec.allOnes 32) : pattern ||| w &&& operandMask = w := by
  rw [← h, ← BitVec.and_or_distrib_left, hall, BitVec.and_allOnes]

/-- Settles O2: the row's fixed bits, the operand bits and the bit of `<mod>` are all the bits of the word. -/
theorem encodeOfDecodeIsTheWord : Obligations.EncodeOfDecodeIsTheWord := by
  intro w i h
  obtain ⟨r, hr, hmatch, rfl⟩ := decodeWord_ok h
  have hw : w &&& r.mask = r.pattern := by simpa [EncodingRow.matches] using hmatch
  have hmod : w &&& (r.mask ||| modMask) = r.pattern ||| (modField w).bit <<< 22 := by
    rw [BitVec.and_or_distrib_left, hw, modField_bit]
  simp only [encodingTable, List.mem_cons, List.not_mem_nil, or_false] at hr
  rcases hr with rfl | rfl | rfl | rfl | rfl | rfl
  iterate 4
    · rw [encode, fieldWord_or, fieldWord_fields]
      exact or_and_operandMask_eq hmod (by decide)
  all_goals
    rw [encode, fieldWord_fields]
    exact or_and_operandMask_eq hw (by decide)

end Sys2Proof
end

section
/-! Obligations O6 and O7: sample words, and the assembler lines of the instructions. -/

namespace Sys2Proof

/-- Settles O6: the decoder runs on nine fixed words. -/
theorem sampleWordsDecode : Obligations.SampleWordsDecode := by
  unfold Obligations.SampleWordsDecode
  decide

/-- Each constructor's line is well formed and reads back (30_encoding.md R75). -/
theorem asmLineReadsBack (i : Instr) : Laws.AsmLineReadsBack.Statement i := by
  cases i with
  | ldff1h32Scaled => exact Laws.AsmLineReadsBack.ldff1h32Scaled ..
  | ldff1h32UnpackedScaled => exact Laws.AsmLineReadsBack.ldff1h32UnpackedScaled ..
  | ldff1h32UnpackedUnscaled => exact Laws.AsmLineReadsBack.ldff1h32UnpackedUnscaled ..
  | ldff1h32Unscaled => exact Laws.AsmLineReadsBack.ldff1h32Unscaled ..
  | ldff1h64Scaled => exact Laws.AsmLineReadsBack.ldff1h64Scaled ..
  | ldff1h64Unscaled => exact Laws.AsmLineReadsBack.ldff1h64Unscaled ..

theorem fin?_eq_some {n k : Nat} {r : Fin n} (h : fin? n k = some r) : r.val = k := by
  unfold fin? at h
  split at h
  · simp_all [← Option.some.inj h]
  · simp at h

theorem AsmBase.asm_base {b : AsmBase} {r : Base} (h : b.base? = some r) : r.asm = b := by
  cases b with
  | x n =>
    simp only [AsmBase.base?] at h
    split at h
    · rw [← Option.some.inj h, Base.asm]
    · simp at h
  | sp => rw [← Option.some.inj h, Base.asm]

/-- The operands an assembled line names are those of its instruction. -/
theorem asm_of_assemble {l : AsmLine} {i : Instr} (h : assemble l = some i) : i.asm = l := by
  obtain ⟨zt, ztSuffix, pg, base, zm, zmSuffix, specifier, amount⟩ := l
  unfold assemble at h
  split at h
  · next zt' pg' rn' zm' hzt hpg hrn hzm =>
    dsimp only at hzt hpg hrn hzm h
    split at h
    all_goals cases h
    all_goals simp [Instr.asm, Mod.asm, fin?_eq_some hzt, fin?_eq_some hpg, fin?_eq_some hzm, AsmBase.asm_base hrn]
  · simp at h

/-- A well-formed line names operands that exist. -/
theorem wellFormed_operands {l : AsmLine} (h : l.wellFormed = true) :
    (∃ zt, fin? 32 l.zt = some zt) ∧ (∃ pg, fin? 8 l.pg = some pg) ∧ (∃ rn, l.base.base? = some rn) ∧
      ∃ zm, fin? 32 l.zm = some zm := by
  simp only [AsmLine.wellFormed, Bool.and_eq_true, decide_eq_true_eq] at h
  obtain ⟨⟨⟨⟨⟨hzt, hpg⟩, hrn⟩, hzm⟩, -⟩, -⟩ := h
  have named : ∀ {n k : Nat}, k < n → ∃ r, fin? n k = some r := fun hk => ⟨_, dif_pos hk⟩
  refine ⟨named (by omega), named (by omega), ?_, named (by omega)⟩
  cases hb : l.base with
  | x n =>
    rw [hb] at hrn
    exact ⟨_, dif_pos (Nat.lt_succ_of_le (by simpa [AsmBase.named] using hrn))⟩
  | sp => exact ⟨_, rfl⟩

/-- The ends of the six lines: a `<mod>` with or without a shift by 1, and for `.D` also `LSL #1` or nothing. -/
theorem endsAsListed_cases {l : AsmLine} (h : l.endsAsListed = true) :
    ((l.specifier = some .uxtw ∨ l.specifier = some .sxtw) ∧ (l.amount = none ∨ l.amount = some 1)) ∨
      (l.ztSuffix = .d ∧ (l.specifier = some .lsl ∧ l.amount = some 1 ∨ l.specifier = none ∧ l.amount = none)) := by
  unfold AsmLine.endsAsListed at h
  split at h <;> simp_all

/-- A well-formed line is assembled: its end is that of one of the six classes (30_encoding.md R75). -/
theorem assemble_of_wellFormed {l : AsmLine} (h : l.wellFormed = true) : ∃ i, assemble l = some i := by
  obtain ⟨⟨zt, hzt⟩, ⟨pg, hpg⟩, ⟨rn, hrn⟩, ⟨zm, hzm⟩⟩ := wellFormed_operands h
  simp only [AsmLine.wellFormed, Bool.and_eq_true, beq_iff_eq] at h
  obtain ⟨⟨-, hsuffix⟩, hend⟩ := h
  unfold assemble
  rw [hzt, hpg, hrn, hzm, ← hsuffix]
  obtain ⟨hs | hs, ha | ha⟩ | ⟨hd, ⟨hs, ha⟩ | ⟨hs, ha⟩⟩ := endsAsListed_cases hend
  iterate 4
    · cases hd : l.ztSuffix <;> rw [hs, ha] <;> exact ⟨_, rfl⟩
  all_goals
    rw [hd, hs, ha]
    exact ⟨_, rfl⟩

/-- Settles O7: a line assembles exactly when it is well formed, and then to the instruction whose line it is. -/
theorem linesAreThoseOfInstructions : Obligations.LinesAreThoseOfInstructions := by
  refine ⟨fun i => (asmLineReadsBack i).1, fun l => ⟨fun h => ?_, fun h => ?_⟩⟩
  · obtain ⟨i, hi⟩ := assemble_of_wellFormed h
    exact ⟨i, hi, asm_of_assemble hi⟩
  · cases hi : assemble l with
    | none => rfl
    | some i =>
      have : l.wellFormed = true := asm_of_assemble hi ▸ (asmLineReadsBack i).1
      simp [h] at this

end Sys2Proof
end

section
/-! Obligations O11 and O22 to O28: the checks before the loop, the stop of the first active element, and the
completion. -/

namespace Sys2Proof
open Machine

/-! ## The checks before the loop (40 R87, R91) -/

/-- Nothing before the element loop stops the instruction under the draws. -/
structure PassesChecks (s : State) (d : Draws) (i : Instr) : Prop where
  vl : vlOk s.vl = true
  access : s.accessCheck (encode i) = none
  sp : s.spCheckFails d i = false

theorem passesChecks_of_entersLoop {s : State} {i : Instr} (d : Draws) (h : s.entersLoop i = true) :
    PassesChecks s d i := by
  obtain ⟨hv, ha, hsp⟩ := entersLoop_checks d h
  exact ⟨hv, ha, hsp⟩

/-- Some element is active for the stack-pointer check exactly when one is in the terms of the claims. -/
theorem someActive_eq_true_iff {s : State} {i : Instr} : s.someActive i = true ↔ ∃ e, s.active i e = true := by
  simp only [State.someActive, anyActive, List.any_eq_true, List.mem_range, State.active, Bool.and_eq_true,
    decide_eq_true_eq]
  rfl

theorem someActive_eq_false {s : State} {i : Instr} (h : ∀ e, s.active i e = false) : s.someActive i = false := by
  rw [Bool.eq_false_iff, Ne, someActive_eq_true_iff]
  simp [h]

theorem sveUsable_iff_accessCheck {s : State} {w : InstrWord} : s.sveUsable = true ↔ s.accessCheck w = none := by
  rw [accessCheck_none]
  unfold State.sveUsable
  cases s.haveSve <;> cases s.sveEnabled <;> cases s.streaming <;> cases s.fa64Enabled <;> simp

theorem passesChecks_of_spPasses {s : State} {d : Draws} {i : Instr} (hv : vlOk s.vl = true) (hu : s.sveUsable = true)
    (hsp : s.spPasses d i) : PassesChecks s d i := by
  refine ⟨hv, sveUsable_iff_accessCheck.mp hu, ?_⟩
  unfold State.spCheckFails
  by_cases hrn : i.rn = .sp
  · cases hm : s.spMisaligned with
    | false => simp
    | true =>
      obtain ⟨hnone, hdraw⟩ := hsp hrn hm
      simp [someActive_eq_false hnone, hdraw]
  · simp [hrn]

/-- The low `k` bits of a word are zero exactly when it is a multiple of `2 ^ k`. -/
theorem extractLsb'_zero_eq_zero_iff {n k : Nat} (x : BitVec n) : x.extractLsb' 0 k = 0 ↔ x.toNat % 2 ^ k = 0 := by
  simp [← BitVec.toNat_inj, BitVec.extractLsb'_toNat]

theorem spMisaligned_iff {s : State} : s.spMisaligned = true ↔ s.spAlignCheck = true ∧ s.sp.toNat % 16 ≠ 0 := by
  simp only [State.spMisaligned, Bool.and_eq_true, bne_iff_ne, Ne, extractLsb'_zero_eq_zero_iff, Nat.reducePow]

/-! ## What an execution answers (40 R86) -/

section
variable {s : State} {d : Draws} {i : Instr}

theorem ldff1h_of_not_vlOk (h : vlOk s.vl = false) : ldff1h i d s = .refused .badParameter := by
  simp [ldff1h, h]

theorem ldff1h_of_accessCheck (hv : vlOk s.vl = true) {x : Exception} (h : s.accessCheck (encode i) = some x) :
    ldff1h i d s = .next (s.trap x) := by
  simp [ldff1h, hv, h, takeException]

theorem ldff1h_of_spCheckFails (hv : vlOk s.vl = true) (ha : s.accessCheck (encode i) = none)
    (h : s.spCheckFails d i = true) : ldff1h i d s = .next (s.trap .spAlignmentFault) := by
  simp [ldff1h, hv, ha, h, takeException]

theorem ldff1h_of_loop_error (hc : PassesChecks s d i) {st : Stop}
    (h : elementLoop s d (s.gather i) (elementCount s.vl (constsOf i)) 0 (Loop.start s.ffr) = .error st) :
    ldff1h i d s = stopWith st s := by
  simp [ldff1h, hc.vl, hc.access, hc.sp, h]

theorem ldff1h_of_loop_ok (hc : PassesChecks s d i) {l : Loop s.vl}
    (h : elementLoop s d (s.gather i) (elementCount s.vl (constsOf i)) 0 (Loop.start s.ffr) = .ok l) :
    ldff1h i d s = complete s i.zt l.result l.ffr l.reads := by
  simp [ldff1h, hc.vl, hc.access, hc.sp, h]

/-- What stops the read of the first active element stops the instruction (40 R93). -/
theorem ldff1h_of_first_stops (hc : PassesChecks s d i) {f : Nat} {st : Stop} (hf : s.isFirst i f = true)
    (hst : s.memStop (s.addressOf i f) = some st) : ldff1h i d s = stopWith st s := by
  obtain ⟨hlt, hact, hbelow⟩ := isFirst_iff.mp hf
  exact ldff1h_of_loop_error hc
    (elementLoop_first_stops (esize_group_pos i) (Nat.le_of_eq (elements_cover hc.vl i)) hlt hact hbelow hst)

/-- An instruction whose first active element can be read comes to its completion (40 R98). -/
theorem ldff1h_of_firstReadable (hc : PassesChecks s d i) (hr : s.firstReadable i = true) :
    ∃ l, LoopAt s d (s.gather i) s.ffr (elementCount s.vl (constsOf i)) l ∧
      ldff1h i d s = complete s i.zt l.result l.ffr l.reads := by
  obtain ⟨l, hl, hspec⟩ := loop_returns d hc.vl hr
  exact ⟨l, hspec, ldff1h_of_loop_ok hc hl⟩

theorem firstReadable_of_none_active (h : ∀ e, s.active i e = false) : s.firstReadable i = true := by
  simp [State.firstReadable, State.isFirst, h]

theorem not_active_of_pReg_eq_zero (h : s.pReg i.pg = 0) (e : Nat) : s.active i e = false := by
  simp [State.active, activeElement, h]

theorem complete_of_pcAdvances (h : s.pcAdvances = true) (t : Fin 32) (v : BitVec s.vl) (f : BitVec (s.vl / 8))
    (rs : List ReadEvent) : complete s t v f rs = .next (s.finish t v f rs) :=
  complete_eq_next.mpr ⟨by simpa [State.pcAdvances] using h, rfl⟩

/-- A ready instruction completes, under any draws, with what its loop leaves (70 R142). -/
theorem ldff1h_of_readyFor (d : Draws) (h : s.readyFor i = true) :
    ∃ l, LoopAt s d (s.gather i) s.ffr (elementCount s.vl (constsOf i)) l ∧
      ldff1h i d s = .next (s.finish i.zt l.result l.ffr l.reads) := by
  simp only [State.readyFor, Bool.and_eq_true] at h
  obtain ⟨⟨henter, hpc⟩, hread⟩ := h
  obtain ⟨l, hl, heq⟩ := ldff1h_of_firstReadable (passesChecks_of_entersLoop d henter) hread
  exact ⟨l, hl, heq.trans (complete_of_pcAdvances hpc ..)⟩

/-- The same of the instruction's own meaning. -/
theorem exec_of_readyFor (h : s.readyFor i = true) :
    ∃ l, LoopAt s (Draws.ofExecution s.draws) (s.gather i) s.ffr (elementCount s.vl (constsOf i)) l ∧
      exec i s = .next (s.finish i.zt l.result l.ffr l.reads) := by
  rw [exec_eq_ldff1h]
  exact ldff1h_of_readyFor _ h

end

/-! ## The obligations -/

/-- Settles O22: each clause is one of the three answers of the access check. -/
theorem enableChecksTrapInOrder : Obligations.EnableChecksTrapInOrder := by
  intro i s hv
  rw [exec_eq_ldff1h]
  refine ⟨fun h1 => ?_, fun h1 h2 => ?_, fun h1 h2 h3 h4 => ?_⟩ <;>
    exact ldff1h_of_accessCheck hv (by simp [State.accessCheck, *])

/-- Settles O23: with an active element the check is always made. -/
theorem misalignedSpTraps : Obligations.MisalignedSpTraps := by
  intro i s e hv hu hrn hcheck hsp he
  rw [exec_eq_ldff1h]
  refine ldff1h_of_spCheckFails hv (sveUsable_iff_accessCheck.mp hu) ?_
  simp [State.spCheckFails, hrn, spMisaligned_iff.mpr ⟨hcheck, hsp⟩, someActive_eq_true_iff.mpr ⟨e, he⟩]

/-- Settles O24: with no active element the check's answer is the draw. -/
theorem spCheckIsDrawnWithNoActiveElement : Obligations.SpCheckIsDrawnWithNoActiveElement := by
  intro i d s hv hu hrn hmis hnone hpc
  refine ⟨fun hdraw => ?_, fun hdraw => ?_⟩
  · refine ldff1h_of_spCheckFails hv (sveUsable_iff_accessCheck.mp hu) ?_
    simp [State.spCheckFails, hrn, hmis, hdraw]
  · have hc : PassesChecks s d i := passesChecks_of_spPasses hv hu fun _ _ => ⟨hnone, hdraw⟩
    obtain ⟨l, -, heq⟩ := ldff1h_of_firstReadable hc (firstReadable_of_none_active hnone)
    exact ⟨_, heq.trans (complete_of_pcAdvances hpc ..), rfl, rfl⟩

/-- Settles O27: the instruction comes to its completion, which the top of the address space refuses. -/
theorem completionAtTheTopIsRefused : Obligations.CompletionAtTheTopIsRefused := by
  intro i d s hv hu hsp hread hpc
  have hlast : s.pc = lastPc := BitVec.eq_of_toNat_eq (by simp [hpc, lastPc])
  obtain ⟨l, -, heq⟩ := ldff1h_of_firstReadable (passesChecks_of_spPasses hv hu hsp) hread
  have hrefused : ldff1h i d s = .refused .pcWrap := heq.trans (if_pos hlast)
  exact ⟨hrefused, fun hd => by rw [exec_eq_ldff1h, ← hd, hrefused]⟩

/-- Settles O28: the completion of a ready instruction is `State.finish`, which is this record. -/
theorem readyInstructionCompletes : Obligations.ReadyInstructionCompletes := by
  intro i s h
  obtain ⟨l, -, heq⟩ := exec_of_readyFor h
  exact ⟨l.result, l.ffr, l.reads, heq⟩

/-- Settles O11: the length is looked at before anything else, by the step and by every meaning. -/
theorem badVectorLengthIsRefused : Obligations.BadVectorLengthIsRefused := by
  intro s h
  have hv : vlOk s.vl = false := by
    rw [Bool.eq_false_iff]
    simpa [vlOk] using h
  exact ⟨fun hrun => by simp [step, hrun, hv], fun i => by rw [exec_eq_ldff1h, ldff1h_of_not_vlOk hv]⟩

/-- Settles O26: the cases of the operation in their order, a stop of the loop being one of the first active element. -/
theorem outcomesOfAnExecution : Obligations.OutcomesOfAnExecution := by
  intro i s
  rw [exec_eq_ldff1h]
  cases hv : vlOk s.vl with
  | false => exact .inr (.inr (.inl (ldff1h_of_not_vlOk hv)))
  | true =>
  cases ha : s.accessCheck (encode i) with
  | some x =>
    refine .inr (.inl ⟨x, ldff1h_of_accessCheck hv ha, ?_⟩)
    obtain ⟨rfl, -⟩ | ⟨rfl, -⟩ | ⟨rfl, -⟩ := accessCheck_cases ha <;> simp
  | none =>
  cases hsp : s.spCheckFails (Draws.ofExecution s.draws) i with
  | true => exact .inr (.inl ⟨_, ldff1h_of_spCheckFails hv ha hsp, by simp⟩)
  | false =>
  have hc : PassesChecks s (Draws.ofExecution s.draws) i := ⟨hv, ha, hsp⟩
  cases hl : elementLoop s (Draws.ofExecution s.draws) (s.gather i) (elementCount s.vl (constsOf i)) 0
      (Loop.start s.ffr) with
  | error st =>
    rw [ldff1h_of_loop_error hc hl]
    obtain ⟨f, -, -, -, hst⟩ := elementLoop_stop (esize_group_pos i) (Nat.le_of_eq (elements_cover hv i)) hl
    obtain rfl | ⟨c, a, rfl⟩ := memStop_cases hst
    · exact .inr (.inr (.inr (.inl rfl)))
    · exact .inr (.inl ⟨_, rfl, by simp⟩)
  | ok l =>
    rw [ldff1h_of_loop_ok hc hl]
    by_cases hpc : s.pc = lastPc
    · exact .inr (.inr (.inr (.inr (if_pos hpc))))
    · exact .inl ⟨_, if_neg hpc, rfl, rfl⟩

/-! ## The first active element (20_memory.md R47) -/

theorem getLsbD_zero_iff_odd {n : Nat} (x : BitVec n) : x.getLsbD 0 = true ↔ x.toNat % 2 = 1 := by
  simp [BitVec.getLsbD, Nat.testBit_zero]

section
variable {s : State} {a : Word}

theorem memStop_of_wrap (h : a = BitVec.allOnes 64) : s.memStop a = some (.refuse .addressWrap) := if_pos h

theorem memStop_of_alignEnforced (h : a ≠ BitVec.allOnes 64) (hodd : a.toNat % 2 = 1) (he : s.alignEnforced = true) :
    s.memStop a = some (.raise (.dataAbort .alignment a)) := by
  have hcheck : (a.getLsbD 0 && s.alignEnforced) = true := by
    rw [(getLsbD_zero_iff_odd a).mpr hodd, he, Bool.and_self]
  rw [State.memStop, if_neg h, if_pos hcheck]

/-- The access passes the two tests of `Mem` that look at no verdict. -/
structure ReachesVerdicts (s : State) (a : Word) : Prop where
  inside : a ≠ BitVec.allOnes 64
  aligned : ¬ (a.toNat % 2 = 1 ∧ s.alignEnforced = true)

theorem ReachesVerdicts.not_checked (h : ReachesVerdicts s a) : ¬ (a.getLsbD 0 && s.alignEnforced) = true := by
  rw [Bool.and_eq_true, getLsbD_zero_iff_odd]
  exact h.aligned

theorem memStop_of_first_abort (h : ReachesVerdicts s a) {c : String} (h0 : s.verdictAt a .read = .abort c) :
    s.memStop a = some (.raise (.dataAbort (.verdict c) a)) := by
  rw [State.memStop, if_neg h.inside, if_neg h.not_checked, h0]

theorem memStop_of_second_abort (h : ReachesVerdicts s a) (h0 : ∀ c, s.verdictAt a .read ≠ .abort c) {c : String}
    (h1 : s.verdictAt (a + 1) .read = .abort c) : s.memStop a = some (.raise (.dataAbort (.verdict c) (a + 1))) := by
  rw [State.memStop, if_neg h.inside, if_neg h.not_checked, h1]
  cases hv : s.verdictAt a .read with
  | abort c' => exact absurd hv (h0 c')
  | okNormal => rfl
  | okDevice => rfl

theorem touchesDevice_iff :
    s.touchesDevice a = true ↔ s.verdictAt a .read = .okDevice ∨ s.verdictAt (a + 1) .read = .okDevice := by
  simp [State.touchesDevice, State.isDevice]

theorem memStop_of_odd_device (h : ReachesVerdicts s a) (h0 : ∀ c, s.verdictAt a .read ≠ .abort c)
    (h1 : ∀ c, s.verdictAt (a + 1) .read ≠ .abort c) (hodd : a.toNat % 2 = 1) (hd : s.touchesDevice a = true) :
    s.memStop a = some (.raise (.dataAbort .alignment a)) := by
  have hcheck : (a.getLsbD 0 && s.touchesDevice a) = true := by
    rw [(getLsbD_zero_iff_odd a).mpr hodd, hd, Bool.and_self]
  rw [State.memStop, if_neg h.inside, if_neg h.not_checked, if_pos hcheck]
  split
  · next c hc => exact absurd hc (h0 c)
  · next c hc _ => exact absurd hc (h1 c)
  · rfl

/-- What a stopped access says of the state (20_memory.md R47). -/
theorem memStop_justified {st : Stop} (h : s.memStop a = some st) :
    st = .refuse .addressWrap ∨
      (st = .raise (.dataAbort .alignment a) ∧ a.toNat % 2 = 1 ∧ (s.alignEnforced = true ∨ s.touchesDevice a = true)) ∨
      ∃ c b, st = .raise (.dataAbort (.verdict c) b) ∧ s.verdictAt b .read = .abort c := by
  unfold State.memStop at h
  split at h
  · exact .inl (by simpa using h.symm)
  · split at h
    · next hodd =>
      rw [Bool.and_eq_true, getLsbD_zero_iff_odd] at hodd
      exact .inr (.inl ⟨by simpa using h.symm, hodd.1, .inl hodd.2⟩)
    · split at h
      · next c hc => exact .inr (.inr ⟨c, a, by simpa using h.symm, hc⟩)
      · next c hc _ => exact .inr (.inr ⟨c, a + 1, by simpa using h.symm, hc⟩)
      · split at h
        · next hodd =>
          rw [Bool.and_eq_true, getLsbD_zero_iff_odd] at hodd
          exact .inr (.inl ⟨by simpa using h.symm, hodd.1, .inr hodd.2⟩)
        · simp at h

end

/-- Settles O25: the first active element is the one that can stop, and each clause is one arm of `memStop`. -/
theorem firstElementAbortsInOrder : Obligations.FirstElementAbortsInOrder := by
  intro i s f henter hf a
  have stops : ∀ st, s.memStop a = some st → exec i s = stopWith st s := fun st hst => by
    rw [exec_eq_ldff1h]
    exact ldff1h_of_first_stops (passesChecks_of_entersLoop _ henter) hf hst
  refine ⟨fun hwrap => stops _ (memStop_of_wrap hwrap), fun hin => ⟨fun hodd he => ?_, fun hal => ?_⟩⟩
  · exact stops _ (memStop_of_alignEnforced hin hodd he)
  · have hr : ReachesVerdicts s a := ⟨hin, hal⟩
    refine ⟨fun c hc => stops _ (memStop_of_first_abort hr hc), fun h0 => ⟨fun c hc => ?_, fun h1 hodd hd => ?_⟩⟩
    · exact stops _ (memStop_of_second_abort hr h0 hc)
    · exact stops _ (memStop_of_odd_device hr h0 h1 hodd (touchesDevice_iff.mpr hd))

end Sys2Proof
end

section
/-! Obligations O8 to O10, O12 to O14: the fetch, its stops in order, and the words the host places. -/

namespace Sys2Proof
open Machine

/-! ## A fetch (20_memory.md R43) -/

section
variable {s : State}

theorem pcAligned_iff : s.pcAligned = true ↔ s.pc.toNat % 4 = 0 := by
  rw [State.pcAligned, beq_iff_eq]
  exact extractLsb'_zero_eq_zero_iff s.pc

theorem fetch_of_misaligned (h : s.pc.toNat % 4 ≠ 0) : fetch s = .error (.raise (.pcAlignment s.pc)) := by
  have : s.pcAligned = false := by
    rw [Bool.eq_false_iff, Ne, pcAligned_iff]
    exact h
  simp [fetch, this]

theorem fetch_of_abort (hp : s.pcAligned = true) {x : Exception} (h : s.fetchAbort = some x) :
    fetch s = .error (.raise x) := by
  simp [fetch, hp, h]

theorem fetch_of_device (hp : s.pcAligned = true) (ha : s.fetchAbort = none) (h : s.fetchDevice = true) :
    fetch s = .error (.refuse .fetchFromDevice) := by
  simp [fetch, hp, ha, h]

theorem fetch_of_allowed (hp : s.pcAligned = true) (ha : s.fetchAbort = none) (h : s.fetchDevice = false) :
    fetch s = .ok s.wordAtPc := by
  simp [fetch, hp, ha, h]

/-- The bytes of an instruction are the four from `pc` upward. -/
theorem fetchAddresses_eq_map (pc : Word) : fetchAddresses pc = (List.range 4).map fun k => pc + BitVec.ofNat 64 k := by
  simp [fetchAddresses, List.range_succ]

theorem fetchAbort_eq_none_iff :
    s.fetchAbort = none ↔ ∀ a ∈ fetchAddresses s.pc, ∀ c, s.verdictAt a .fetch ≠ .abort c := by
  rw [State.fetchAbort, List.findSome?_eq_none_iff]
  refine forall₂_congr fun a _ => ?_
  split
  · next c hc => simp [hc]
  · next hne => simpa using hne

/-- The first `some` of a function of the numbers below `n`. -/
theorem findSome?_range {α : Type} {g : Nat → Option α} {x : α} {k : Nat} (hx : g k = some x)
    (hlow : ∀ j < k, g j = none) : ∀ {n : Nat}, k < n → (List.range n).findSome? g = some x
  | n + 1, hk => by
    rw [List.range_succ, List.findSome?_append]
    by_cases h : k < n
    · rw [findSome?_range hx hlow h, Option.some_or]
    · obtain rfl : k = n := by omega
      rw [List.findSome?_eq_none_iff.mpr fun j hj => hlow j (List.mem_range.mp hj)]
      simp [hx]

theorem fetchAbort_of_lowest {k : Nat} (hk : k < 4) {c : String}
    (h : s.verdictAt (s.pc + BitVec.ofNat 64 k) .fetch = .abort c)
    (hlow : ∀ j < k, ∀ c', s.verdictAt (s.pc + BitVec.ofNat 64 j) .fetch ≠ .abort c') :
    s.fetchAbort = some (.instructionAbort c (s.pc + BitVec.ofNat 64 k)) := by
  rw [State.fetchAbort, fetchAddresses_eq_map, List.findSome?_map]
  refine findSome?_range ?_ (fun j hj => ?_) hk
  · simp [h]
  · simp only [Function.comp_apply]
    split
    · next c' hc' => exact absurd hc' (hlow j hj c')
    · rfl

theorem fetch_of_fetchable (hp : s.pcAligned = true) (h : s.fetchable = true) : fetch s = .ok s.wordAtPc := by
  have hn : ∀ a ∈ fetchAddresses s.pc, s.verdictAt a .fetch = .okNormal := by simpa [State.fetchable] using h
  refine fetch_of_allowed hp (fetchAbort_eq_none_iff.mpr fun a ha c => by simp [hn a ha]) ?_
  rw [State.fetchDevice, List.any_eq_false]
  intro a ha
  simp [hn a ha]

end

/-! ## A step (00_scope.md R19) -/

section
variable {s : State}

theorem step_of_fetch_error (hrun : s.status = .running) (hv : vlOk s.vl = true) {st : Stop}
    (h : fetch s = .error st) : step s = stopWith st s := by
  simp [step, hrun, hv, h]

theorem step_of_fetch_ok (hrun : s.status = .running) (hv : vlOk s.vl = true) {w : InstrWord} (h : fetch s = .ok w)
    {i : Instr} (hi : decodeWord w = .ok i) : step s = endCheck (exec i s) := by
  simp [step, hrun, hv, h, hi]

theorem step_of_no_class (hrun : s.status = .running) (hv : vlOk s.vl = true) {w : InstrWord} (h : fetch s = .ok w)
    {r : Reject} (hr : decodeWord w = .error r) : step s = .refused (.notInSource w) := by
  simp [step, hrun, hv, h, hr]

end

/-- Settles O10: the status is looked at first. -/
theorem haltedRunTakesNoStep : Obligations.HaltedRunTakesNoStep := by
  intro s
  refine ⟨fun x h => ?_, fun h => ?_⟩ <;> simp [step, h]

/-- Settles O9: each clause is one answer of the fetch, the last one of the decoder. -/
theorem fetchStopsInOrder : Obligations.FetchStopsInOrder := by
  intro s hrun hv
  refine ⟨fun hp => step_of_fetch_error hrun hv (fetch_of_misaligned hp), fun hp => ?_⟩
  have hp : s.pcAligned = true := pcAligned_iff.mpr hp
  have bytes : ∀ {P : Word → Prop}, (∀ j < 4, P (s.pc + BitVec.ofNat 64 j)) → ∀ a ∈ fetchAddresses s.pc, P a := by
    intro P h
    simpa [fetchAddresses_eq_map] using h
  refine ⟨fun k c hk hc hlow => ?_, fun habort => ?_⟩
  · exact step_of_fetch_error hrun hv (fetch_of_abort hp (fetchAbort_of_lowest hk hc hlow))
  · have habort : s.fetchAbort = none := fetchAbort_eq_none_iff.mpr (bytes habort)
    refine ⟨fun ⟨j, hj, hd⟩ => ?_, fun hd r hr => ?_⟩
    · refine step_of_fetch_error hrun hv (fetch_of_device hp habort ?_)
      rw [State.fetchDevice, fetchAddresses_eq_map, List.any_map, List.any_eq_true]
      exact ⟨j, List.mem_range.mpr hj, by simp [hd]⟩
    · refine step_of_no_class hrun hv (fetch_of_allowed hp habort ?_) hr
      rw [State.fetchDevice, List.any_eq_false]
      intro a ha
      simpa using bytes (P := fun a => s.verdictAt a .fetch ≠ .okDevice) hd a ha

/-- A state is at the end of its run in the words of the claims. -/
theorem atEnd_iff {s : State} :
    s.atEnd = true ↔ s.status = .running ∧ s.pc.toNat = s.codeBase.toNat + 4 * s.codeLen := by
  simp [State.atEnd]

/-- Settles O8: the fetch returns the word, which is decoded as its four bytes are. -/
theorem stepRunsTheDecodedInstruction : Obligations.StepRunsTheDecodedInstruction := by
  intro s i hrun hv hp hf hdec
  rw [step_of_fetch_ok hrun hv (fetch_of_fetchable hp hf) (decode_four_eq_ok_iff.mp hdec).1]
  cases exec i s with
  | next t =>
    by_cases hend : t.atEnd = true
    · rw [endCheck, if_pos hend]
      simp only [if_pos (atEnd_iff.mp hend)]
      rfl
    · rw [endCheck, if_neg hend]
      simp only [if_neg (fun h => hend (atEnd_iff.mpr h))]
  | fault f => rfl
  | refused r => rfl

/-! ## Bytes the host places -/

/-- Placed bytes read back, when they do not come round to the first again. -/
theorem memGet_putBytes {b : Byte} : ∀ {bs : List Byte} {m : List Host.Cell} {a : Word} {i : Nat}, memWf m = true →
    bs.length ≤ 2 ^ 64 → bs[i]? = some b → memGet (putBytes m a bs) (a + BitVec.ofNat 64 i).toNat = b
  | v :: bs, m, a, 0, hm, hlen, hb => by
    simp only [List.length_cons] at hlen
    have away : ∀ i < bs.length, (a + BitVec.ofNat 64 0).toNat ≠ (a + 1 + BitVec.ofNat 64 i).toNat := by
      intro i hi
      bv_omega
    rw [putBytes, memGet_putBytes_other bs _ _ away]
    simpa [memGet_memPut_same v hm] using hb
  | v :: bs, m, a, i + 1, hm, hlen, hb => by
    have : a + BitVec.ofNat 64 (i + 1) = a + 1 + BitVec.ofNat 64 i := by bv_omega
    rw [putBytes, this]
    exact memGet_putBytes (memPut_wf a.isLt v hm) (by simp at hlen; omega) (by simpa using hb)

theorem fetchable_iff {s : State} :
    s.fetchable = true ↔ ∀ k < 4, s.verdictAt (s.pc + BitVec.ofNat 64 k) .fetch = .okNormal := by
  simp [State.fetchable, fetchAddresses_eq_map]

/-- A fetch of four placed bytes that may be fetched returns their word. -/
theorem fetch_of_bytes {s : State} {w : InstrWord} (hp : s.pcAligned = true) (hf : s.fetchable = true)
    (hb : ∀ k < 4, ∀ b, (bytesOfWord w)[k]? = some b → s.byteAt (s.pc + BitVec.ofNat 64 k) = b) : fetch s = .ok w := by
  have h0 : s.byteAt s.pc = w.extractLsb' 0 8 := by simpa using hb 0 (by decide) _ rfl
  have h1 : s.byteAt (s.pc + 1) = w.extractLsb' 8 8 := hb 1 (by decide) _ rfl
  have h2 : s.byteAt (s.pc + 2) = w.extractLsb' 16 8 := hb 2 (by decide) _ rfl
  have h3 : s.byteAt (s.pc + 3) = w.extractLsb' 24 8 := hb 3 (by decide) _ rfl
  rw [fetch_of_fetchable hp hf, State.wordAtPc, h0, h1, h2, h3, wordOfBytes_bytes]

/-- The first region decides for the bytes it covers. -/
theorem verdictIn_of_covers {r : Region} {rs : List Region} {a : Word} {k : AccessKind} (h : r.covers a k = true) :
    verdictIn (r :: rs) a k = r.verdict := by
  simp [verdictIn, h]

/-- A region of fetchable memory covers the instruction at an offset inside it. -/
theorem covers_instruction {base : Word} {size off k : Nat} (hk : off + k < size) (htop : base.toNat + size ≤ 2 ^ 64) :
    (⟨base.toNat, size, .fetch, .okNormal⟩ : Region).covers (base + BitVec.ofNat 64 off + BitVec.ofNat 64 k) .fetch =
      true := by
  have : (base + BitVec.ofNat 64 off + BitVec.ofNat 64 k).toNat = base.toNat + (off + k) := by
    simp only [BitVec.toNat_add, BitVec.toNat_ofNat]
    omega
  simp [Region.covers, this]
  omega

/-! ## A word placed at `pc` (log entry 26) -/

section
variable (s : State) (w : InstrWord)

theorem placeWord_pcAligned : (s.placeWord w).pcAligned = true := by
  have : (s.pc &&& ~~~3#64).extractLsb' 0 2 = 0 := by
    rw [BitVec.extractLsb'_and, show (~~~3#64).extractLsb' 0 2 = 0 by decide]
    simp
  rw [State.pcAligned, beq_iff_eq]
  exact this

theorem placeWord_fetchable : (s.placeWord w).fetchable = true := by
  have hp := pcAligned_iff.mp (placeWord_pcAligned s w)
  have hlt := (s.placeWord w).pc.isLt
  by_cases hf : State.fetchable { s with pc := s.pc &&& ~~~3#64 } = true
  · have hmap : (s.placeWord w).map = s.map := if_pos hf
    rw [fetchable_iff] at hf ⊢
    simp only [State.verdictAt, hmap]
    exact hf
  · have hmap : (s.placeWord w).map = ⟨(s.placeWord w).pc.toNat, 4, .fetch, .okNormal⟩ :: s.map := if_neg hf
    rw [fetchable_iff]
    intro k hk
    have := covers_instruction (base := (s.placeWord w).pc) (off := 0) (size := 4) (k := k) (by omega) (by omega)
    rw [BitVec.add_zero] at this
    rw [State.verdictAt, hmap, verdictIn_of_covers this]

theorem fetch_placeWord (hm : memWf s.mem = true) : fetch (s.placeWord w) = .ok w :=
  fetch_of_bytes (placeWord_pcAligned s w) (placeWord_fetchable s w) fun _ _ _ hb =>
    memGet_putBytes hm (by simp [bytesOfWord]) hb

theorem step_placeWord (hv : vlOk s.vl = true) (hm : memWf s.mem = true) {i : Instr} (hi : decodeWord w = .ok i) :
    step (s.placeWord w) = endCheck (exec i (s.placeWord w)) :=
  step_of_fetch_ok (s := s.placeWord w) rfl hv (fetch_placeWord s w hm) hi

end

/-- Settles O12: the placed word is what the fetch of the next step returns. -/
theorem withFetchWordRunsTheWord : Obligations.WithFetchWordRunsTheWord := by
  intro s w i hv hm hw hi
  rw [State.withFetchWord, Nat.mod_eq_of_lt hw]
  exact step_placeWord s _ hv hm hi

/-- At reset no element is active and nothing stands in the way of a completion. -/
theorem reset_placeWord_readyFor (w : InstrWord) (i : Instr) : (State.reset.placeWord w).readyFor i = true := by
  have hnone : ∀ e, (State.reset.placeWord w).active i e = false := fun e =>
    not_active_of_pReg_eq_zero (by simp [State.pReg, State.placeWord, State.reset]) e
  have hv : vlOk (State.reset.placeWord w).vl = true := show vlOk 128 = true by decide
  have hu : (State.reset.placeWord w).sveUsable = true := rfl
  have hsp : (State.reset.placeWord w).spMisaligned = false := rfl
  have hpc : (State.reset.placeWord w).pcAdvances = true := rfl
  simp [State.readyFor, State.entersLoop, State.spUsable, hv, hu, hsp, hpc, firstReadable_of_none_active hnone]

/-- Settles O13: the placed word is the instruction's, and the reset state is ready for every instruction. -/
theorem freshMachineRunsAnyInstruction : Obligations.FreshMachineRunsAnyInstruction := by
  intro i
  rw [State.withFetchWord, Nat.mod_eq_of_lt (encode i).isLt, BitVec.ofNat_toNat, BitVec.setWidth_eq]
  obtain ⟨l, -, heq⟩ := exec_of_readyFor (reset_placeWord_readyFor (encode i) i)
  rw [step_placeWord _ _ rfl rfl (decodeOfEncodeIsTheInstruction i), heq]
  refine ⟨_, rfl, ?_⟩
  split <;> rfl

/-! ## A launched program (70 R141) -/

theorem programBytes_length : ∀ program : List InstrWord, (programBytes program).length = 4 * program.length
  | [] => rfl
  | w :: ws => by
    rw [programBytes, List.length_append, programBytes_length ws]
    simp only [bytesOfWord, List.length_cons, List.length_nil]
    omega

/-- The bytes of word `j` stand at `4 * j`. -/
theorem programBytes_getElem? {k : Nat} (hk : k < 4) {w : InstrWord} :
    ∀ {program : List InstrWord} {j : Nat}, program[j]? = some w →
      (programBytes program)[4 * j + k]? = (bytesOfWord w)[k]?
  | v :: ws, 0, h => by
    obtain rfl : v = w := by simpa using h
    rw [programBytes, Nat.mul_zero, Nat.zero_add, List.getElem?_append_left (by simpa [bytesOfWord] using hk)]
  | v :: ws, j + 1, h => by
    have hlen : (bytesOfWord v).length = 4 := rfl
    rw [programBytes, List.getElem?_append_right (by omega), hlen, show 4 * (j + 1) + k - 4 = 4 * j + k by omega]
    exact programBytes_getElem? hk (by simpa using h)

/-- Settles O14: the launch's region makes every word fetchable, and its bytes are those the fetch puts together. -/
theorem launchedProgramIsFetched : Obligations.LaunchedProgramIsFetched := by
  intro s base program hm hbase htop j w hj
  have hlt : j < program.length := (List.getElem?_eq_some_iff.mp hj).1
  refine fetch_of_bytes (pcAligned_iff.mpr ?_) (fetchable_iff.mpr fun k hk => ?_) fun k hk b hb => ?_
  · show (base + BitVec.ofNat 64 (4 * j)).toNat % 4 = 0
    simp only [BitVec.toNat_add, BitVec.toNat_ofNat]
    omega
  · exact verdictIn_of_covers (covers_instruction (by omega) htop)
  · rw [← programBytes_getElem? hk hj] at hb
    have haddr : base + BitVec.ofNat 64 (4 * j) + BitVec.ofNat 64 k = base + BitVec.ofNat 64 (4 * j + k) := by
      rw [BitVec.add_assoc, ← BitVec.ofNat_add]
    rw [State.byteAt, haddr]
    exact memGet_putBytes hm (by rw [programBytes_length]; omega) hb

end Sys2Proof
end

section
/-! Obligations O15 to O21 and O29: what an execution and a step do to the state, and runs of any length. -/

namespace Sys2Proof
open Machine

/-! ## A recorded trap is borne out by the state (60 R120 to R126) -/

section
variable {s : State}

theorem accessCheck_justified {w : InstrWord} {x : Exception} (hw : s.wordAtPc = w) (h : s.accessCheck w = some x) :
    s.justifies x := by
  obtain ⟨rfl, h1⟩ | ⟨rfl, h1, h2⟩ | ⟨rfl, h1, h2, h3, h4⟩ := accessCheck_cases h
  · exact ⟨h1, hw.symm⟩
  · exact ⟨h1, h2⟩
  · exact ⟨h1, h2, h3, h4⟩

theorem spCheckFails_justified {d : Draws} {i : Instr} {w : InstrWord} (ha : s.accessCheck w = none)
    (h : s.spCheckFails d i = true) : s.justifies .spAlignmentFault := by
  simp only [State.spCheckFails, Bool.and_eq_true] at h
  exact ⟨sveUsable_iff_accessCheck.mpr ha, spMisaligned_iff.mp h.1.2⟩

theorem memStop_raise_justified {w : InstrWord} {a : Word} {x : Exception} (ha : s.accessCheck w = none)
    (h : s.memStop a = some (.raise x)) : s.justifies x := by
  obtain hr | ⟨hx, hodd, hwhy⟩ | ⟨c, b, hx, hc⟩ := memStop_justified h
  · cases hr
  · cases hx
    exact ⟨hodd, hwhy⟩
  · cases hx
    exact ⟨sveUsable_iff_accessCheck.mpr ha, hc⟩

theorem fetch_raise_justified {x : Exception} (h : fetch s = .error (.raise x)) : s.justifies x := by
  obtain ⟨hp, hx⟩ | ⟨hp, y, hy, hx⟩ | ⟨-, -, -, hx⟩ := fetch_error_cases h
  · cases hx
    exact ⟨rfl, fun h4 => by simp [pcAligned_iff.mpr h4] at hp⟩
  · cases hx
    obtain ⟨a, ha, hsome⟩ := List.exists_of_findSome?_eq_some hy
    split at hsome
    · next c hc =>
      cases hsome
      exact ⟨hp, ha, hc⟩
    · cases hsome
  · cases hx

/-- Recording a trap changes nothing that justifies one. -/
theorem justifies_trap {x y : Exception} (h : s.justifies x) : (s.trap y).justifies x := by
  cases x with
  | dataAbort c a => cases c <;> exact h
  | _ => exact h

end

/-! ## What an execution and a step can do -/

/-- An execution that answers a next state has trapped, for a reason in the state, or completed away from the top of the
address space; only FFR bits that were 1 are 1 after. -/
theorem exec_next_cases {i : Instr} {s t : State} (h : exec i s = .next t) :
    (∃ x, t = s.trap x ∧ (s.wordAtPc = encode i → s.justifies x)) ∨
      ∃ (v : BitVec s.vl) (f : BitVec (s.vl / 8)) (rs : List ReadEvent), t = s.finish i.zt v f rs ∧ s.pc ≠ lastPc ∧
        ∀ j, f.getLsbD j = true → s.ffr.getLsbD j = true := by
  rw [exec_eq_ldff1h] at h
  obtain ⟨hv, ⟨x, hx, rfl⟩ | ⟨ha, hsp, rfl⟩ | ⟨ha, _, x, hl, rfl⟩ | ⟨_, _, hpc, l, hl, rfl⟩⟩ := ldff1h_next_cases h
  · exact .inl ⟨x, rfl, fun hw => accessCheck_justified hw hx⟩
  · exact .inl ⟨_, rfl, fun _ => spCheckFails_justified ha hsp⟩
  · obtain ⟨f, -, -, -, hst⟩ := elementLoop_stop (esize_group_pos i) (Nat.le_of_eq (elements_cover hv i)) hl
    exact .inl ⟨x, rfl, fun _ => memStop_raise_justified ha hst⟩
  · refine .inr ⟨l.result, l.ffr, l.reads, rfl, hpc, fun j hj => ?_⟩
    rw [(gather_loop_spec hv hl).ffr j, Bool.and_eq_true] at hj
    exact hj.1

/-- A step has trapped, for a reason in the state, or completed an aligned instruction away from the top of the address
space and made the end-of-run test. -/
theorem step_next_shape {s u : State} (h : step s = .next u) :
    s.status = .running ∧
      ((∃ x, u = s.trap x ∧ s.justifies x) ∨
        ∃ (t : Fin 32) (v : BitVec s.vl) (f : BitVec (s.vl / 8)) (rs : List ReadEvent),
          (u = (s.finish t v f rs).endRun ∧ (s.finish t v f rs).atEnd = true ∨
            u = s.finish t v f rs ∧ (s.finish t v f rs).atEnd = false) ∧
          s.pc.toNat % 4 = 0 ∧ s.pc ≠ lastPc ∧ ∀ j, f.getLsbD j = true → s.ffr.getLsbD j = true) := by
  obtain ⟨hrun, -, ⟨x, hx, rfl⟩ | ⟨i, t, hp, hi, ht, rfl⟩⟩ := step_next_cases h
  · exact ⟨hrun, .inl ⟨x, rfl, fetch_raise_justified hx⟩⟩
  · refine ⟨hrun, ?_⟩
    obtain ⟨x, rfl, hx⟩ | ⟨v, f, rs, rfl, hpc, hf⟩ := exec_next_cases ht
    · exact .inl ⟨x, if_neg (by simp [State.atEnd]), hx (encodeOfDecodeIsTheWord _ _ hi).symm⟩
    · refine .inr ⟨i.zt, v, f, rs, ?_, pcAligned_iff.mp hp, hpc, hf⟩
      cases hend : (s.finish i.zt v f rs).atEnd <;> simp

/-- Settles O29: a trap changes the status alone, a completion the destination, FFR, `pc` and the model's own fields. -/
theorem frameOfTheGatherLoads : Obligations.FrameOfTheGatherLoads := by
  intro i s t h
  obtain ⟨x, rfl, -⟩ | ⟨v, f, rs, rfl, -, hf⟩ := exec_next_cases h
  · refine ⟨rfl, rfl, rfl, fun _ => rfl, fun _ _ => rfl, fun _ hj => hj, fun _ => rfl, rfl, rfl, rfl, rfl, rfl, rfl,
      rfl, rfl, rfl, rfl, [], ?_⟩
    simp
  · exact ⟨rfl, rfl, rfl, fun _ => rfl, fun r hr => congrArg BitVec.toNat (finish_zReg_other s i.zt v f rs hr), hf,
      fun _ => rfl, rfl, rfl, rfl, rfl, rfl, rfl, rfl, rfl, rfl, rfl, rs, rfl⟩

/-! ## What no step changes -/

theorem sameConstants_trap (s : State) (x : Exception) : s.SameConstants (s.trap x) :=
  ⟨rfl, rfl, rfl, fun _ => rfl, fun _ => rfl, rfl, rfl, rfl, rfl, rfl, rfl, rfl, rfl, rfl, rfl⟩

theorem sameConstants_finish (s : State) (t : Fin 32) (v : BitVec s.vl) (f : BitVec (s.vl / 8)) (rs : List ReadEvent) :
    s.SameConstants (s.finish t v f rs) :=
  ⟨rfl, rfl, rfl, fun _ => rfl, fun _ => rfl, rfl, rfl, rfl, rfl, rfl, rfl, rfl, rfl, rfl, rfl⟩

theorem sameConstants_endRun (s : State) : s.SameConstants s.endRun :=
  ⟨rfl, rfl, rfl, fun _ => rfl, fun _ => rfl, rfl, rfl, rfl, rfl, rfl, rfl, rfl, rfl, rfl, rfl⟩

theorem sameConstants_refl (s : State) : s.SameConstants s :=
  ⟨rfl, rfl, rfl, fun _ => rfl, fun _ => rfl, rfl, rfl, rfl, rfl, rfl, rfl, rfl, rfl, rfl, rfl⟩

theorem sameConstants_trans {s t u : State} (h : s.SameConstants t) (h' : t.SameConstants u) : s.SameConstants u where
  vl := h'.vl.trans h.vl
  x := h'.x.trans h.x
  sp := h'.sp.trans h.sp
  p g := (h'.p g).trans (h.p g)
  bytes a := (h'.bytes a).trans (h.bytes a)
  map := h'.map.trans h.map
  haveSve := h'.haveSve.trans h.haveSve
  sveEnabled := h'.sveEnabled.trans h.sveEnabled
  streaming := h'.streaming.trans h.streaming
  fa64Enabled := h'.fa64Enabled.trans h.fa64Enabled
  spAlignCheck := h'.spAlignCheck.trans h.spAlignCheck
  bigEndianData := h'.bigEndianData.trans h.bigEndianData
  alignEnforced := h'.alignEnforced.trans h.alignEnforced
  codeBase := h'.codeBase.trans h.codeBase
  codeLen := h'.codeLen.trans h.codeLen

/-- Settles O20: a trap, a completion and the end of a run all keep the constants. -/
theorem stepKeepsTheConstants : Obligations.StepKeepsTheConstants := by
  intro s u h
  obtain ⟨-, ⟨x, rfl, -⟩ | ⟨t, v, f, rs, ⟨rfl, -⟩ | ⟨rfl, -⟩, -⟩⟩ := step_next_shape h
  · exact sameConstants_trap s x
  · exact sameConstants_trans (sameConstants_finish s t v f rs) (sameConstants_endRun _)
  · exact sameConstants_finish s t v f rs

/-- A step sets no FFR bit (10_state.md R24). -/
theorem step_ffr_le {s u : State} (h : step s = .next u) (j : Nat) (hj : u.ffr.getLsbD j = true) :
    s.ffr.getLsbD j = true := by
  obtain ⟨-, ⟨x, rfl, -⟩ | ⟨t, v, f, rs, ⟨rfl, -⟩ | ⟨rfl, -⟩, -, -, hf⟩⟩ := step_next_shape h
  · exact hj
  · exact hf j hj
  · exact hf j hj

/-- Settles O19: a trap leaves `pc`, a completion adds 4. -/
theorem pcStaysAligned : Obligations.PcStaysAligned := by
  intro s u hp h
  have hnext : (s.pc + 4).toNat % 4 = 0 := by
    bv_omega
  obtain ⟨-, ⟨x, rfl, -⟩ | ⟨t, v, f, rs, ⟨rfl, -⟩ | ⟨rfl, -⟩, -⟩⟩ := step_next_shape h
  · exact hp
  · exact hnext
  · exact hnext

/-! ## The invariant -/

/-- Settles O18: the reset state is running, with nothing in memory. -/
theorem resetMeetsTheInvariant : Obligations.ResetMeetsTheInvariant :=
  ⟨⟨by decide, reset_memWf, trivial⟩, rfl, rfl⟩

/-- Settles O17: no step changes `VL` or memory, a trap comes with its reason, and a run ends at its end. -/
theorem stepKeepsTheInvariant : Obligations.StepKeepsTheInvariant := by
  intro s u hs h
  obtain ⟨hrun, ⟨x, rfl, hx⟩ | ⟨t, v, f, rs, ⟨rfl, hend⟩ | ⟨rfl, -⟩, -⟩⟩ := step_next_shape h
  · exact ⟨hs.vl, hs.mem, justifies_trap hx⟩
  · exact ⟨hs.vl, hs.mem, (atEnd_iff.mp hend).2⟩
  · refine ⟨hs.vl, hs.mem, ?_⟩
    simp [State.statusHolds, hrun]

/-! ## Runs -/

theorem run_zero_eq_next {s t : State} : Host.Core.run core 0 s = .next t ↔ s = t := by
  show Host.Outcome.next s = .next t ↔ s = t
  exact ⟨fun h => by injection h, fun h => h ▸ rfl⟩

theorem run_succ_eq_next {k : Nat} {s t : State} :
    Host.Core.run core (k + 1) s = .next t ↔ ∃ u, step s = .next u ∧ Host.Core.run core k u = .next t := by
  have hstep : core.step s = step s := rfl
  simp only [Host.Core.run, hstep]
  cases step s <;> simp

/-- Settles O21, by induction on the number of steps. -/
theorem ffrBitsNeverComeBack : Obligations.FfrBitsNeverComeBack := by
  intro k
  induction k with
  | zero =>
    intro s t h
    obtain rfl := run_zero_eq_next.mp h
    exact ⟨sameConstants_refl s, fun _ hj => hj⟩
  | succ k ih =>
    intro s t h
    obtain ⟨u, hstep, hrest⟩ := run_succ_eq_next.mp h
    obtain ⟨hconst, hffr⟩ := ih u t hrest
    exact ⟨sameConstants_trans (stepKeepsTheConstants s u hstep) hconst, fun j hj => step_ffr_le hstep j (hffr j hj)⟩

/-- A step has trapped at `pc`, or moved on by one word and ended the run exactly at its end (70 R143). -/
theorem step_pc_status {s u : State} (h : step s = .next u) :
    ((∃ x, u.status = .trapped x) ∧ u.pc = s.pc) ∨
      (u.pc = s.pc + 4 ∧ u.pc.toNat = s.pc.toNat + 4 ∧
        (u.status = .endedWell ∧ u.pc.toNat = s.codeBase.toNat + 4 * s.codeLen ∨
          u.status = .running ∧ u.pc.toNat ≠ s.codeBase.toNat + 4 * s.codeLen)) := by
  obtain ⟨hrun, ⟨x, rfl, -⟩ | ⟨t, v, f, rs, hu, halign, hlast, -⟩⟩ := step_next_shape h
  · exact .inl ⟨⟨x, rfl⟩, rfl⟩
  · have hpc : (s.pc + 4).toNat = s.pc.toNat + 4 := by
      have : s.pc.toNat ≠ 2 ^ 64 - 4 := fun he => hlast (BitVec.eq_of_toNat_eq (by simp [he, lastPc]))
      have := s.pc.isLt
      bv_omega
    obtain ⟨rfl, hend⟩ | ⟨rfl, hend⟩ := hu
    · exact .inr ⟨rfl, hpc, .inl ⟨rfl, (atEnd_iff.mp hend).2⟩⟩
    · refine .inr ⟨rfl, hpc, .inr ⟨hrun, fun he => ?_⟩⟩
      rw [atEnd_iff (s := s.finish t v f rs) |>.mpr ⟨hrun, he⟩] at hend
      cases hend

/-- Settles O15: a completion at the end is what ends a run, and a trap leaves `pc`. -/
theorem runEndsAfterTheLastWord : Obligations.RunEndsAfterTheLastWord := by
  intro s u h
  obtain ⟨⟨x, hx⟩, hpc⟩ | ⟨hpc, -, ⟨hst, hend⟩ | ⟨hst, hend⟩⟩ := step_pc_status h
  · simp [hx, hpc]
  · exact iff_of_true hst ⟨hpc, hend⟩
  · simp [hst, hend]

/-- A run that is over takes no step. -/
theorem run_of_not_running {k : Nat} {s t : State} (h : s.status ≠ .running)
    (hrun : Host.Core.run core k s = .next t) : k = 0 ∧ t = s := by
  cases k with
  | zero => exact ⟨rfl, (run_zero_eq_next.mp hrun).symm⟩
  | succ k =>
    obtain ⟨u, hu, -⟩ := run_succ_eq_next.mp hrun
    exact absurd (step_next_shape hu).1 h

/-- A run of at least one step, from a running state `j` words into the program, that has not trapped has ended well
exactly when it has come through all the words. -/
theorem run_status {k : Nat} : ∀ {j : Nat} {s t : State}, s.status = .running →
    s.pc.toNat = s.codeBase.toNat + 4 * j → Host.Core.run core (k + 1) s = .next t →
    (∃ x, t.status = .trapped x) ∨ (t.status = .endedWell ∧ j + (k + 1) = s.codeLen) ∨
      (t.status = .running ∧ j + (k + 1) ≠ s.codeLen) := by
  induction k with
  | zero =>
    intro j s t _ hpc h
    obtain ⟨u, hu, hrest⟩ := run_succ_eq_next.mp h
    obtain rfl := run_zero_eq_next.mp hrest
    obtain ⟨hx, -⟩ | ⟨-, hnext, ⟨hst, hend⟩ | ⟨hst, hend⟩⟩ := step_pc_status hu
    · exact .inl hx
    · exact .inr (.inl ⟨hst, by omega⟩)
    · exact .inr (.inr ⟨hst, by omega⟩)
  | succ k ih =>
    intro j s t _ hpc h
    obtain ⟨u, hu, hrest⟩ := run_succ_eq_next.mp h
    have hrunning : u.status = .running := by
      by_contra hne
      exact absurd (run_of_not_running hne hrest).1 (Nat.succ_ne_zero k)
    obtain ⟨⟨x, hx⟩, -⟩ | ⟨-, hnext, -⟩ := step_pc_status hu
    · simp [hx] at hrunning
    · have hconst := stepKeepsTheConstants s u hu
      have := ih (j := j + 1) hrunning (by rw [hconst.codeBase]; omega) hrest
      rwa [hconst.codeLen, show j + 1 + (k + 1) = j + (k + 1 + 1) by omega] at this

/-- Settles O16: a run of no step is still running, and a longer one is `run_status` from the first word. -/
theorem runTakesCodeLenSteps : Obligations.RunTakesCodeLenSteps := by
  intro s t k hrun hpc h
  cases k with
  | zero =>
    obtain rfl := run_zero_eq_next.mp h
    simp [hrun]
  | succ k =>
    obtain ⟨x, hx⟩ | ⟨hst, hk⟩ | ⟨hst, hk⟩ := run_status (j := 0) hrun (by simp [hpc]) h
    · simp [hx]
    · exact ⟨fun _ => by omega, fun _ _ _ => hst⟩
    · simp [hst]
      omega

end Sys2Proof
end

section
/-! Obligations O36 to O43 and O52: what a completed instruction leaves in FFR, its destination and the history. -/

namespace Sys2Proof
open Machine

/-! ## The loop's description in the words of the claims (40 R96, R97) -/

section
variable {s : State} {d : Draws} {i : Instr} {l : Loop s.vl}

/-- Only the instruction's own elements are active. -/
theorem lt_elements_of_active {e : Nat} (h : s.active i e = true) : e < s.elements i := by
  simp only [State.active, Bool.and_eq_true, decide_eq_true_eq] at h
  exact h.1

/-- Nothing below the first active element is active. -/
theorem not_active_of_lt_isFirst {e f : Nat} (hf : s.isFirst i f = true) (he : e < f) : s.active i e = false := by
  simp only [State.isFirst, Bool.and_eq_true, List.all_eq_true, List.mem_range, Bool.not_eq_true'] at hf
  exact hf.2 e he

theorem active_of_isFirst {f : Nat} (hf : s.isFirst i f = true) : s.active i f = true := by
  simp only [State.isFirst, Bool.and_eq_true] at hf
  exact hf.1

theorem reportsFault_eq_false_of_not_active {e : Nat} (h : s.active i e = false) : s.reportsFault d i e = false := by
  simp [State.reportsFault, h]

theorem reportsFault_eq_false_of_isFirst {e : Nat} (h : s.isFirst i e = true) : s.reportsFault d i e = false := by
  simp [State.reportsFault, h]

/-- A later active element reports no fault exactly when its read is performed. -/
theorem reportsFault_eq_false_iff {e : Nat} (ha : s.active i e = true) (hf : s.isFirst i e = false) :
    s.reportsFault d i e = false ↔
      s.memStop (s.addressOf i e) = none ∧ s.touchesDevice (s.addressOf i e) = false ∧ d.nfPerform e = true := by
  simp [State.reportsFault, ha, hf, and_assoc]

/-- The group of FFR bit `j` is that of element `j / size`. -/
theorem group_iff {j e size : Nat} (h : 0 < size) : e * size ≤ j ∧ j < (e + 1) * size ↔ e = j / size := by
  rw [← Nat.le_div_iff_mul_le h, ← Nat.div_lt_iff_lt_mul h]
  omega

variable (hl : LoopAt s d (s.gather i) s.ffr (elementCount s.vl (constsOf i)) l)
include hl

/-- An FFR bit is kept exactly when no element up to its own has reported a fault (40 R96). -/
theorem loop_ffr_iff {j : Nat} (hj : j / ((constsOf i).esize / 8) < s.elements i) :
    l.ffr.getLsbD j = true ↔
      s.ffr.getLsbD j = true ∧ ∀ e ≤ j / ((constsOf i).esize / 8), s.reportsFault d i e = false := by
  rw [hl.ffr j, Bool.and_eq_true, Bool.not_eq_true', List.any_eq_false]
  refine and_congr_right fun _ => ?_
  simp only [List.mem_range, Bool.and_eq_true, decide_eq_true_eq, and_assoc]
  simp only [gather_consts, group_iff (esize_group_pos i)]
  constructor
  · intro h e he
    have hnot : faultedBelow s d (s.gather i) (j / ((constsOf i).esize / 8) + 1) ≠ true := fun hf => h _ hj ⟨hf, rfl⟩
    rw [faultedBelow_eq hj, Ne, List.any_eq_true] at hnot
    simpa using fun hf => hnot ⟨e, List.mem_range.mpr (Nat.lt_succ_of_le he), hf⟩
  · rintro h e he ⟨hfault, rfl⟩
    rw [faultedBelow_eq he, List.any_eq_true] at hfault
    obtain ⟨e', he', hf⟩ := hfault
    rw [h e' (Nat.le_of_lt_succ (List.mem_range.mp he'))] at hf
    cases hf

/-- From an element that reports a fault upward FFR is 0. -/
theorem loop_ffr_cleared (hv : vlOk s.vl = true) {e j : Nat} (hf : s.reportsFault d i e = true)
    (hj : e * ((constsOf i).esize / 8) ≤ j) : l.ffr.getLsbD j = false := by
  have hpos := esize_group_pos i
  have hcover : s.elements i * ((constsOf i).esize / 8) = s.vl / 8 := groups_cover hv i
  by_cases hlt : j / ((constsOf i).esize / 8) < s.elements i
  · rw [Bool.eq_false_iff, Ne, loop_ffr_iff hl hlt]
    rintro ⟨-, hnone⟩
    rw [hnone e ((Nat.le_div_iff_mul_le hpos).mpr hj)] at hf
    cases hf
  · rw [Nat.div_lt_iff_lt_mul hpos, hcover] at hlt
    exact BitVec.getLsbD_of_ge _ _ (Nat.not_lt.mp hlt)

/-- FFR element by element. -/
theorem loop_ffrElem_iff {e : Nat} (he : e < s.elements i) :
    ffrElem l.ffr e (constsOf i).esize = true ↔
      ffrElem s.ffr e (constsOf i).esize = true ∧ ∀ e' ≤ e, s.reportsFault d i e' = false := by
  have hdiv : e * ((constsOf i).esize / 8) / ((constsOf i).esize / 8) = e := Nat.mul_div_cancel _ (esize_group_pos i)
  have := loop_ffr_iff hl (j := e * ((constsOf i).esize / 8)) (by rwa [hdiv])
  rwa [hdiv] at this

/-- Up to an element no FFR element is 0 after the loop exactly when none was before and no fault was reported. -/
theorem loop_ffrFalseBelow {e : Nat} (he : e < s.elements i) :
    ffrFalseBelow l.ffr (constsOf i).esize (e + 1) = false ↔
      s.ffrFalseUpTo i e = false ∧ ∀ e' ≤ e, s.reportsFault d i e' = false := by
  simp only [State.ffrFalseUpTo, ffrFalseBelow, List.any_eq_false, List.mem_range, Nat.lt_succ_iff, Bool.not_eq_true',
    Bool.not_eq_false]
  constructor
  · intro h
    refine ⟨fun e' he' => ?_, ((loop_ffrElem_iff hl he).mp (h e (Nat.le_refl e))).2⟩
    exact ((loop_ffrElem_iff hl (Nat.lt_of_le_of_lt he' he)).mp (h e' he')).1
  · rintro ⟨h, hfault⟩ e' he'
    exact (loop_ffrElem_iff hl (Nat.lt_of_le_of_lt he' he)).mpr ⟨h e' he', fun k hk => hfault k (hk.trans he')⟩

/-- A definite element is exactly loaded (40 R103 (2)). -/
theorem loop_result_definite {e : Nat} (he : e < s.elements i)
    (hffr : ffrFalseBelow l.ffr (constsOf i).esize (e + 1) = false) :
    elem l.result e (constsOf i).esize =
      if s.active i e then (s.memValue d (s.addressOf i e)).setWidth (constsOf i).esize else 0 := by
  have hfault := ((loop_ffrFalseBelow hl he).mp hffr).2 e (Nat.le_refl e)
  have := hl.result e he
  simp only [gather_consts, hffr, accessAt_eq he, hfault] at this
  rw [this]
  cases s.active i e <;> simp [elementResult, extend]

/-- An indefinite element by the draws (40 R97, R103 (3)). -/
theorem loop_result_unknown {e : Nat} (he : e < s.elements i)
    (hffr : ffrFalseBelow l.ffr (constsOf i).esize (e + 1) = true) :
    elem l.result e (constsOf i).esize =
      if s.reportsFault d i e = false ∧ d.cuData e = true then
        if s.active i e then (s.memValue d (s.addressOf i e)).setWidth (constsOf i).esize else 0
      else if d.cuZero e then 0
      else elem (s.zReg i.zt) e (constsOf i).esize := by
  have := hl.result e he
  simp only [gather_consts, hffr, accessAt_eq he] at this
  rw [this]
  cases ha : s.active i e with
  | false => simp [elementResult, extend, reportsFault_eq_false_of_not_active ha]
  | true => cases s.reportsFault d i e <;> simp [elementResult, extend]

end

/-! ## The reads (40 R104) -/

/-- The read of an active element, by the primitive of its place. -/
def readEvent (s : State) (i : Instr) (e : Nat) : ReadEvent :=
  ⟨e, s.addressOf i e, if s.isFirst i e then .faulting else .nonFaulting⟩

theorem flatMap_eq_map_filter {α β : Type} {f : α → List β} {p : α → Bool} {g : α → β} :
    ∀ {xs : List α}, (∀ x ∈ xs, f x = if p x then [g x] else []) → xs.flatMap f = (xs.filter p).map g
  | [], _ => rfl
  | x :: xs, h => by
    rw [List.flatMap_cons, h x (by simp), flatMap_eq_map_filter fun y hy => h y (by simp [hy])]
    cases hp : p x <;> simp [hp]

/-- The loop reads each active element that reports no fault, once, in order. -/
theorem loop_reads {s : State} {d : Draws} {i : Instr} {l : Loop s.vl}
    (hl : LoopAt s d (s.gather i) s.ffr (elementCount s.vl (constsOf i)) l) :
    l.reads =
      ((List.range (s.elements i)).filter fun e => s.active i e && !s.reportsFault d i e).map (readEvent s i) := by
  rw [hl.reads]
  refine flatMap_eq_map_filter fun e he => ?_
  rw [accessAt_eq (List.mem_range.mp he)]
  cases s.active i e <;> cases s.reportsFault d i e <;> rfl

/-! ## First-fault behaviour -/

theorem reportsFault_zero (s : State) (d : Draws) (i : Instr) : s.reportsFault d i 0 = false := by
  cases ha : s.active i 0 with
  | false => exact reportsFault_eq_false_of_not_active ha
  | true => exact reportsFault_eq_false_of_isFirst (by simp [State.isFirst, ha])

/-- Settles O36: `k` is the first element that reports a fault, and a bit is kept exactly below its group. -/
theorem ffrLosesASuffix : Obligations.FfrLosesASuffix := by
  intro i d s t h
  obtain ⟨hv, l, hl, rfl⟩ := completesAs_finish h
  have hex : ∃ k, s.elements i ≤ k ∨ s.reportsFault d i k = true := ⟨_, .inl (Nat.le_refl _)⟩
  have hbelow : ∀ e < Nat.find hex, s.reportsFault d i e = false := fun e he =>
    Bool.eq_false_iff.mpr fun hf => Nat.find_min hex he (.inr hf)
  have hat : Nat.find hex < s.elements i → s.reportsFault d i (Nat.find hex) = true := fun hlt =>
    (Nat.find_spec hex).resolve_left (Nat.not_le.mpr hlt)
  refine ⟨Nat.find hex, ?_, Nat.find_min' hex (.inl (Nat.le_refl _)), hbelow, hat, fun j hj => ?_⟩
  · rw [Nat.one_le_iff_ne_zero, Ne, Nat.find_eq_zero, reportsFault_zero]
    have : 0 < s.elements i := elementCount_pos hv i
    simp
    omega
  · have hpos := esize_group_pos i
    have hcover : s.elements i * ((constsOf i).esize / 8) = s.vl / 8 := groups_cover hv i
    have hlt : j / ((constsOf i).esize / 8) < s.elements i := by rwa [Nat.div_lt_iff_lt_mul hpos, hcover]
    show l.ffr.getLsbD j = _
    rw [Bool.eq_iff_iff, loop_ffr_iff hl hlt, Bool.and_eq_true, decide_eq_true_eq, ← Nat.div_lt_iff_lt_mul hpos]
    refine and_congr_right fun _ => ⟨fun hnone => ?_, fun hk e he => hbelow e (Nat.lt_of_le_of_lt he hk)⟩
    by_contra hge
    have hge := Nat.not_lt.mp hge
    rw [hnone _ hge] at hat
    exact absurd (hat (Nat.lt_of_le_of_lt hge hlt)) (by decide)

/-- A completion of the instruction's own meaning is one under the draws of this execution. -/
theorem completesAs_of_exec {i : Instr} {s t : State} (h : exec i s = .next t) (hpc : t.pc = s.pc + 4) :
    s.completesAs i (Draws.ofExecution s.draws) t :=
  ⟨.inr ⟨rfl, h⟩, hpc⟩

/-- The destination of a completed instruction, element by element, is the loop's result. -/
theorem finish_zReg_elem {s : State} (t : Fin 32) (v : BitVec s.vl) (f : BitVec (s.vl / 8)) (rs : List ReadEvent)
    (e size : Nat) : elem ((s.finish t v f rs).zReg t) e size = elem v e size :=
  congrArg (fun b : BitVec s.vl => elem b e size) (finish_zReg_same s t v f rs)

/-- Settles O37: a definite element's FFR bits say that no fault was reported up to it. -/
theorem definiteElementsAreLoaded : Obligations.DefiniteElementsAreLoaded := by
  intro i s t e h hpc he hffr
  obtain ⟨-, l, hl, rfl⟩ := completesAs_finish (completesAs_of_exec h hpc)
  rw [finish_zReg_elem]
  exact loop_result_definite hl he hffr

/-- Settles O38: the draws decide, and an active element's data comes from an access that was performed. -/
theorem unknownElementsAreOldZeroOrData : Obligations.UnknownElementsAreOldZeroOrData := by
  intro i d s t e h he hffr
  obtain ⟨-, l, hl, rfl⟩ := completesAs_finish h
  rw [finish_zReg_elem]
  refine ⟨loop_result_unknown hl he hffr, fun ha hfault => ?_⟩
  cases hf : s.isFirst i e with
  | true =>
    obtain ⟨hlt, hact, hbelow⟩ := isFirst_iff.mp hf
    exact ⟨hl.readable e hlt hact hbelow, nofun⟩
  | false =>
    obtain ⟨hstop, hdevice, hperform⟩ := (reportsFault_eq_false_iff ha hf).mp hfault
    exact ⟨hstop, fun _ => ⟨hdevice, hperform⟩⟩

/-- Settles O39: no element up to the first active one can report a fault. -/
theorem firstActiveElementIsLoaded : Obligations.FirstActiveElementIsLoaded := by
  intro i s t f h hpc hf hffr
  obtain ⟨-, l, hl, rfl⟩ := completesAs_finish (completesAs_of_exec h hpc)
  obtain ⟨hlt, hact, hbelow⟩ := isFirst_iff.mp hf
  have hnone : ∀ e ≤ f, s.reportsFault (Draws.ofExecution s.draws) i e = false := by
    intro e he
    rcases Nat.lt_or_eq_of_le he with he | rfl
    · exact reportsFault_eq_false_of_not_active (not_active_of_lt_isFirst hf he)
    · exact reportsFault_eq_false_of_isFirst hf
  have hkept := (loop_ffrFalseBelow hl hlt).mpr ⟨hffr, hnone⟩
  refine ⟨hkept, hl.readable f hlt hact hbelow, ?_⟩
  rw [finish_zReg_elem, loop_result_definite hl hlt hkept, if_pos (active_of_isFirst hf)]

theorem vlOk_of_readyFor {s : State} {i : Instr} (h : s.readyFor i = true) : vlOk s.vl = true := by
  simp only [State.readyFor, State.entersLoop, Bool.and_eq_true] at h
  exact h.1.1.1.1

/-- Settles O40: whatever the draws, such an element reports a fault. -/
theorem laterFaultsAreSuppressed : Obligations.LaterFaultsAreSuppressed := by
  intro i s e hready ha hf hwhy
  obtain ⟨l, hl, heq⟩ := exec_of_readyFor hready
  have hfault : s.reportsFault (Draws.ofExecution s.draws) i e = true := by
    by_contra hnot
    obtain ⟨hstop, hdevice, -⟩ := (reportsFault_eq_false_iff ha hf).mp (Bool.eq_false_iff.mpr hnot)
    rcases hwhy with hwhy | hwhy
    · exact hwhy hstop
    · simp [hdevice] at hwhy
  refine ⟨_, l.reads, heq, rfl, rfl, fun j hj => ?_, rfl, fun r hr he => ?_⟩
  · exact loop_ffr_cleared hl (vlOk_of_readyFor hready) hfault hj
  · rw [loop_reads hl, List.mem_map] at hr
    obtain ⟨e', he', rfl⟩ := hr
    obtain rfl : e' = e := he
    simp [hfault] at he'

/-- Settles O43: the reads are those of `loop_reads`, a part of the elements in order. -/
theorem readsAreOfActiveElements : Obligations.ReadsAreOfActiveElements := by
  intro i s t h hpc
  obtain ⟨-, l, hl, rfl⟩ := completesAs_finish (completesAs_of_exec h hpc)
  refine ⟨_, congrArg (s.reads ++ ·) (loop_reads hl), ?_, fun r hr => ?_, fun f hf => ?_, fun hnone => ?_⟩
  · rw [List.map_map]
    exact List.Pairwise.map _ (fun _ _ hlt => hlt) (List.Pairwise.filter _ List.pairwise_lt_range)
  · obtain ⟨e, he, rfl⟩ := List.mem_map.mp hr
    simp only [List.mem_filter, Bool.and_eq_true] at he
    refine ⟨he.2.1, rfl, ?_⟩
    simp [readEvent]
  · have hfirst : (List.range (s.elements i)).find?
        (fun e => s.active i e && !s.reportsFault (Draws.ofExecution s.draws) i e) = some f := by
      rw [List.find?_range_eq_some]
      refine ⟨by simp [active_of_isFirst hf, reportsFault_eq_false_of_isFirst hf],
        List.mem_range.mpr (lt_elements_of_active (active_of_isFirst hf)), fun e he => ?_⟩
      simp [not_active_of_lt_isFirst hf he]
    rw [List.head?_map, List.head?_filter, hfirst]
    simp [readEvent, hf]
  · simp [hnone]

end Sys2Proof
end

section
/-! Obligations O41, O42 and O52: the exact next state when no fault is reported and FFR is all ones. -/

namespace Sys2Proof
open Machine

/-- With FFR all ones and no fault reported, a ready instruction loads every active element, zeroes the others, leaves
FFR and reads each active element once (40 R102, R104). -/
theorem ldff1h_of_no_fault {s : State} {d : Draws} {i : Instr} (h : s.readyFor i = true) (hones : s.ffrAllOnes i = true)
    (hnone : ∀ e, s.reportsFault d i e = false) :
    ∃ v : BitVec s.vl,
      (∀ e < s.elements i, elem v e (constsOf i).esize =
        if s.active i e then (s.memValue d (s.addressOf i e)).setWidth (constsOf i).esize else 0) ∧
      ldff1h i d s = .next (s.finish i.zt v s.ffr
        (((List.range (s.elements i)).filter (s.active i)).map (readEvent s i))) := by
  obtain ⟨l, hl, heq⟩ := ldff1h_of_readyFor d h
  have hv := vlOk_of_readyFor h
  have hffr : l.ffr = s.ffr := by
    apply BitVec.eq_of_getLsbD_eq
    intro j hj
    have hlt : j / ((constsOf i).esize / 8) < s.elements i := by
      rw [Nat.div_lt_iff_lt_mul (esize_group_pos i)]
      exact hj.trans_eq (groups_cover hv i).symm
    rw [Bool.eq_iff_iff, loop_ffr_iff hl hlt]
    exact and_iff_left fun e _ => hnone e
  have hreads : l.reads = ((List.range (s.elements i)).filter (s.active i)).map (readEvent s i) := by
    rw [loop_reads hl]
    simp [hnone]
  refine ⟨l.result, fun e he => ?_, by rw [heq, hffr, hreads]⟩
  refine loop_result_definite hl he ((loop_ffrFalseBelow hl he).mpr ⟨?_, fun e' _ => hnone e'⟩)
  simp only [State.ffrAllOnes, List.all_eq_true, List.mem_range] at hones
  simp only [State.ffrFalseUpTo, List.any_eq_false, List.mem_range, Nat.lt_succ_iff]
  intro e' he'
  simp [hones e' (Nat.lt_of_le_of_lt he' he)]

/-- Settles O52: the premise on the later active elements is that they report no fault. -/
theorem performedReadsAreExact : Obligations.PerformedReadsAreExact := by
  intro i d s h hones hlater
  have hnone : ∀ e, s.reportsFault d i e = false := by
    intro e
    cases ha : s.active i e with
    | false => exact reportsFault_eq_false_of_not_active ha
    | true =>
      cases hf : s.isFirst i e with
      | true => exact reportsFault_eq_false_of_isFirst hf
      | false => exact (reportsFault_eq_false_iff ha hf).mpr (hlater e ha hf)
  obtain ⟨v, hv, heq⟩ := ldff1h_of_no_fault h hones hnone
  exact ⟨v, hv, heq, fun hd => by rw [exec_eq_ldff1h, ← hd, heq]; rfl⟩

/-- Settles O41: with no active element every element is 0 and there is no read. -/
theorem noActiveElementIsExact : Obligations.NoActiveElementIsExact := by
  intro i s henter hpc hnone hones
  have hready : s.readyFor i = true := by simp [State.readyFor, henter, hpc, firstReadable_of_none_active hnone]
  obtain ⟨v, hv, heq⟩ := ldff1h_of_no_fault (d := Draws.ofExecution s.draws) hready hones
    fun e => reportsFault_eq_false_of_not_active (hnone e)
  have hzero : v = 0 := by
    refine eq_of_elem_eq (elements_cover (vlOk_of_readyFor hready) i) ?_ fun e he => ?_
    · rcases esize_cases i with h | h <;> simp [h]
    · rw [hv e he, hnone e, elem_zero]
      rfl
  rw [exec_eq_ldff1h, heq, hzero]
  simp [State.finish, hnone]

theorem halfword_fits (i : Instr) : 16 ≤ (constsOf i).esize := by
  rcases esize_cases i with h | h <;> simp [h]

/-- A halfword moved to an element's place is that element written into zeros. -/
theorem setWidth_shiftLeft_eq_setElem (n f : Nat) {size : Nat} (x : Half) (hsize : 16 ≤ size) :
    x.setWidth n <<< (f * size) = setElem (0 : BitVec n) f size (x.setWidth size) := by
  rw [setElem, BitVec.setWidth_setWidth (fun h => Nat.not_lt.mpr hsize h.1), BitVec.ofNat_eq_ofNat,
    BitVec.zero_and, BitVec.zero_or]

/-- Only `f` of the numbers below `n` is `f`. -/
theorem filter_range_eq {f n : Nat} (h : f < n) : (List.range n).filter (fun e => decide (e = f)) = [f] := by
  show (List.range n).filter (· == f) = [f]
  rw [List.filter_beq, List.count_eq_one_of_mem List.nodup_range (List.mem_range.mpr h), List.replicate_one]

/-- Settles O42: the one active element is read by `Mem`, from ordinary memory. -/
theorem singleActiveElementIsExact : Obligations.SingleActiveElementIsExact := by
  intro i s f hready hf hothers hones hdevice
  have hlt := lt_elements_of_active (active_of_isFirst hf)
  have hactive : ∀ e, s.active i e = decide (e = f) := by
    intro e
    by_cases he : e = f
    · simp [he, active_of_isFirst hf]
    · simp [he, hothers e he]
  obtain ⟨v, hv, heq⟩ := ldff1h_of_no_fault (d := Draws.ofExecution s.draws) hready hones fun e => by
    by_cases he : e = f
    · exact he ▸ reportsFault_eq_false_of_isFirst hf
    · exact reportsFault_eq_false_of_not_active (hothers e he)
  have hcover : s.elements i * (constsOf i).esize = s.vl := elements_cover (vlOk_of_readyFor hready) i
  have hvalue : v = (s.halfAt (s.addressOf i f)).setWidth s.vl <<< (f * (constsOf i).esize) := by
    rw [setWidth_shiftLeft_eq_setElem _ _ _ (halfword_fits i)]
    refine eq_of_elem_eq hcover (Nat.lt_of_lt_of_le (by decide) (halfword_fits i)) fun e he => ?_
    rw [hv e he, hactive]
    by_cases hef : e = f
    · subst hef
      rw [elem_setElem_same _ _ _ _ ((Nat.mul_le_mul_right _ hlt).trans_eq hcover), memValue_of_not_device _ hdevice]
      simp [State.halfAt]
    · rw [elem_setElem_other _ _ _ hef, elem_zero]
      simp [hef]
  have hreads : (List.range (s.elements i)).filter (s.active i) = [f] := by
    rw [funext hactive, filter_range_eq hlt]
  rw [exec_eq_ldff1h, heq, hvalue, hreads]
  simp [State.finish, readEvent, hf]

end Sys2Proof
end

section
/-! Obligations O30 to O35, O50 and O51: the address of an element in each class, and the value loaded from it. -/

namespace Sys2Proof
open Machine

/-! ## Addresses (40 R92) -/

/-- A 32-bit offset is the low half of its element, read as the class says. -/
theorem elementAddress_32 {n esize : Nat} (h : 32 ≤ esize) (unsig offsUnsigned : Bool) (scale : Nat) (base : Word)
    (v : BitVec n) (e : Nat) :
    elementAddress ⟨esize, 32, unsig, offsUnsigned, scale⟩ base v e =
      BitVec.ofInt 64 (base.toNat + 2 ^ scale * intOf (v.extractLsb' (esize * e) 32) offsUnsigned) := by
  have hlow : (elem v e esize).extractLsb' 0 32 = v.extractLsb' (esize * e) 32 := by
    apply BitVec.eq_of_getLsbD_eq
    intro j hj
    simp [elem, hj, Nat.lt_of_lt_of_le hj h, Nat.mul_comm]
  rw [elementAddress, offsetOf, hlow, Int.mul_comm]

/-- A word read as an integer, unsigned or signed, is itself modulo `2 ^ 64`. -/
theorem ofInt_intOf (x : Word) (isUnsigned : Bool) : BitVec.ofInt 64 (intOf x isUnsigned) = x := by
  cases isUnsigned with
  | false => exact BitVec.ofInt_toInt
  | true => exact (BitVec.ofInt_natCast 64 x.toNat).trans (by simp)

/-- A 64-bit offset is added as a word, however it is read (decision D15). -/
theorem elementAddress_64 {n : Nat} (unsig offsUnsigned : Bool) (scale : Nat) (base : Word) (v : BitVec n) (e : Nat) :
    elementAddress ⟨64, 64, unsig, offsUnsigned, scale⟩ base v e =
      base + BitVec.ofNat 64 (2 ^ scale) * v.extractLsb' (64 * e) 64 := by
  have hlow : (elem v e 64).extractLsb' 0 64 = v.extractLsb' (64 * e) 64 := by
    simp [elem, Nat.mul_comm]
  have hscale : BitVec.ofInt 64 (2 ^ scale) = BitVec.ofNat 64 (2 ^ scale) := BitVec.ofInt_natCast 64 (2 ^ scale)
  rw [elementAddress, offsetOf, hlow, BitVec.ofInt_add, BitVec.ofInt_mul, ofInt_intOf, BitVec.mul_comm, hscale,
    BitVec.ofInt_natCast, BitVec.ofNat_toNat, BitVec.setWidth_eq]

/-! ## The value of a definite element (40 R103 (2)) -/

/-- A ready instruction completes, and below the first FFR element that is 0 each active element of ordinary memory is
loaded and each inactive one is 0. -/
theorem exec_loads {i : Instr} {s : State} {esize group : Nat} (hsize : (constsOf i).esize = esize)
    (hgroup : esize / 8 = group) (h : s.readyFor i = true) :
    ∃ t, exec i s = .next t ∧ t.pc = s.pc + 4 ∧
      ∀ e < s.vl / esize, (∀ j ≤ e, t.ffr.getLsbD (group * j) = true) → ∀ a, s.addressOf i e = a →
        ((s.pReg i.pg).getLsbD (group * e) = true → s.touchesDevice a = false →
          (t.zReg i.zt).extractLsb' (esize * e) esize = (s.halfAt a).setWidth esize) ∧
        ((s.pReg i.pg).getLsbD (group * e) = false → (t.zReg i.zt).extractLsb' (esize * e) esize = 0) := by
  subst hsize hgroup
  obtain ⟨l, hl, heq⟩ := exec_of_readyFor h
  refine ⟨_, heq, rfl, fun e he hffr a ha => ?_⟩
  have hdef : ffrFalseBelow l.ffr (constsOf i).esize (e + 1) = false := by
    rw [ffrFalseBelow, List.any_eq_false]
    intro j hj
    have := hffr j (Nat.le_of_lt_succ (List.mem_range.mp hj))
    rw [Nat.mul_comm] at this
    simpa [ffrElem] using this
  have hval := loop_result_definite hl he hdef
  rw [← finish_zReg_elem i.zt l.result l.ffr l.reads, elem, Nat.mul_comm e, ha] at hval
  have hact : s.active i e = (s.pReg i.pg).getLsbD ((constsOf i).esize / 8 * e) := by
    rw [active_eq he, activeElement, Nat.mul_comm]
  rw [hval, ← hact]
  refine ⟨fun hon hdev => ?_, fun hoff => ?_⟩
  · rw [if_pos hon, memValue_of_not_device _ hdev, State.halfAt]
  · simp [hoff]

/-- Settles O30: 32-bit elements, offsets doubled. -/
theorem loads32Scaled : Obligations.Loads32Scaled := by
  intro zt pg rn zm mod s h
  obtain ⟨t, ht, hpc, hload⟩ := exec_loads (esize := 32) (group := 4) rfl rfl h
  refine ⟨t, ht, hpc, fun e he hffr => hload e he hffr _ ?_⟩
  cases mod <;> exact elementAddress_32 (esize := 32) (Nat.le_refl _) true _ 1 (s.baseValue rn) (s.zReg zm) e

/-- Settles O31: 64-bit elements, the low half of the offset doubled. -/
theorem loads32UnpackedScaled : Obligations.Loads32UnpackedScaled := by
  intro zt pg rn zm mod s h
  obtain ⟨t, ht, hpc, hload⟩ := exec_loads (esize := 64) (group := 8) rfl rfl h
  refine ⟨t, ht, hpc, fun e he hffr => hload e he hffr _ ?_⟩
  cases mod <;> exact elementAddress_32 (esize := 64) (by decide) true _ 1 (s.baseValue rn) (s.zReg zm) e

/-- Settles O32: 64-bit elements, the low half of the offset as it is. -/
theorem loads32UnpackedUnscaled : Obligations.Loads32UnpackedUnscaled := by
  intro zt pg rn zm mod s h
  obtain ⟨t, ht, hpc, hload⟩ := exec_loads (esize := 64) (group := 8) rfl rfl h
  refine ⟨t, ht, hpc, fun e he hffr => hload e he hffr _ ?_⟩
  have := elementAddress_32 (esize := 64) (by decide) true (Machine.Mod.offsUnsigned mod) 0 (s.baseValue rn)
    (s.zReg zm) e
  rw [pow_zero, one_mul] at this
  cases mod <;> exact this

/-- Settles O33: 32-bit elements, offsets as they are. -/
theorem loads32Unscaled : Obligations.Loads32Unscaled := by
  intro zt pg rn zm mod s h
  obtain ⟨t, ht, hpc, hload⟩ := exec_loads (esize := 32) (group := 4) rfl rfl h
  refine ⟨t, ht, hpc, fun e he hffr => hload e he hffr _ ?_⟩
  have := elementAddress_32 (esize := 32) (Nat.le_refl _) true (Machine.Mod.offsUnsigned mod) 0 (s.baseValue rn)
    (s.zReg zm) e
  rw [pow_zero, one_mul] at this
  cases mod <;> exact this

/-- Settles O34: 64-bit elements, offsets doubled modulo `2 ^ 64`. -/
theorem loads64Scaled : Obligations.Loads64Scaled := by
  intro zt pg rn zm s h
  obtain ⟨t, ht, hpc, hload⟩ := exec_loads (esize := 64) (group := 8) rfl rfl h
  exact ⟨t, ht, hpc, fun e he hffr => hload e he hffr _ (elementAddress_64 true true 1 ..)⟩

/-- Settles O35: 64-bit elements, offsets added modulo `2 ^ 64`. -/
theorem loads64Unscaled : Obligations.Loads64Unscaled := by
  intro zt pg rn zm s h
  obtain ⟨t, ht, hpc, hload⟩ := exec_loads (esize := 64) (group := 8) rfl rfl h
  refine ⟨t, ht, hpc, fun e he hffr => hload e he hffr _ ?_⟩
  have := elementAddress_64 true true 0 (s.baseValue rn) (s.zReg zm) e
  rwa [pow_zero, BitVec.one_mul] at this

/-! ## Readings of an offset, and the data's byte order -/

/-- The classes with 64-bit offsets have 64-bit elements. -/
theorem constsOf_of_offsSize_64 {i : Instr} (h : (constsOf i).offsSize = 64) :
    ∃ scale, constsOf i = ⟨64, 64, true, true, scale⟩ := by
  cases i with
  | ldff1h64Scaled | ldff1h64Unscaled => exact ⟨_, rfl⟩
  | _ => simp [constsOf] at h

/-- The classes with 32-bit offsets have elements that hold them. -/
theorem constsOf_of_offsSize_32 {i : Instr} (h : (constsOf i).offsSize = 32) :
    ∃ esize unsig scale, 32 ≤ esize ∧ constsOf i = ⟨esize, 32, true, unsig, scale⟩ := by
  cases i with
  | ldff1h64Scaled | ldff1h64Unscaled => simp [constsOf] at h
  | _ => exact ⟨_, _, _, by decide, rfl⟩

/-- Settles O50: a 64-bit offset is added as a word either way, and a 32-bit one is the low half of its element. -/
theorem offsetReadingsAgree : Obligations.OffsetReadingsAgree := by
  refine ⟨fun i n e base offset h => ?_, fun i n e base offset offset' h hbits => ?_⟩
  · obtain ⟨scale, hc⟩ := constsOf_of_offsSize_64 h
    rw [hc, elementAddress_64, elementAddress_64]
  · obtain ⟨esize, unsig, scale, hsize, hc⟩ := constsOf_of_offsSize_32 h
    rw [hc] at hbits ⊢
    have hlow : offset.extractLsb' (esize * e) 32 = offset'.extractLsb' (esize * e) 32 := by
      apply BitVec.eq_of_getLsbD_eq
      intro j hj
      have := hbits j hj
      simpa [hj, Nat.mul_comm] using this
    rw [elementAddress_32 hsize, elementAddress_32 hsize, hlow]

/-- Settles O51: away from Device memory the two bytes are those of memory. -/
theorem dataByteOrder : Obligations.DataByteOrder := by
  intro s d a hstop hdevice
  rw [memFaulting_eq_ok.mpr ⟨hstop, rfl⟩, memValue_of_not_device d hdevice]
  rfl

end Sys2Proof
end

section
/-! Obligation O45: the data of a suppressed read does not matter. -/

namespace Sys2Proof
open Machine

section
variable {vl : Nat} {s : State} {d : Draws} {q : Gather vl}

/-- An element that reports a fault is unknown, so the data that came with the fault goes nowhere (40 R96, R97). -/
theorem afterAccess_of_fault (hs : 0 < q.consts.esize / 8) (e : Nat) (l : Loop vl) (x y : Half) :
    afterAccess d q e l ⟨x, true, []⟩ = afterAccess d q e l ⟨y, true, []⟩ := by
  simp [afterAccess, elementResult, ffrElem_clearFfrElem_same _ _ hs]

/-- A read that declines reports a fault with that data; every other access ignores it (20_memory.md R48). -/
theorem accessElement_nfData (data : Nat → Half) (e : Nat) (first : Bool) :
    accessElement s { d with nfData := data } q e first = accessElement s d q e first ∨
      accessElement s { d with nfData := data } q e first = .ok ⟨data e, true, []⟩ ∧
        accessElement s d q e first = .ok ⟨d.nfData e, true, []⟩ := by
  unfold accessElement
  split
  · cases first with
    | true => exact .inl rfl
    | false =>
      cases hp : s.nfPerforms d e (elementAddress q.consts q.base q.offset e) with
      | true =>
        have hp' : s.nfPerforms { d with nfData := data } e (elementAddress q.consts q.base q.offset e) = true := hp
        simp only [State.memNonFaulting, hp, hp', if_true]
        exact .inl rfl
      | false =>
        have hp' : s.nfPerforms { d with nfData := data } e (elementAddress q.consts q.base q.offset e) = false := hp
        simp [State.memNonFaulting, hp, hp']
  · exact .inl rfl

theorem elementStep_nfData (hs : 0 < q.consts.esize / 8) (data : Nat → Half) (e : Nat) (l : Loop vl) :
    elementStep s { d with nfData := data } q e l = elementStep s d q e l := by
  unfold elementStep
  obtain h | ⟨h, h'⟩ := accessElement_nfData (s := s) (d := d) (q := q) data e l.first
  · rw [h]
    rfl
  · rw [h, h']
    exact congrArg Except.ok (afterAccess_of_fault hs e l (data e) (d.nfData e))

theorem elementLoop_nfData (hs : 0 < q.consts.esize / 8) (data : Nat → Half) :
    ∀ (k e : Nat) (l : Loop vl), elementLoop s { d with nfData := data } q k e l = elementLoop s d q k e l
  | 0, _, _ => rfl
  | k + 1, e, l => by
    simp only [elementLoop, elementStep_nfData hs, elementLoop_nfData hs data k]

end

/-- Settles O45: no check and no completion looks at that data, and the loop does not use it. -/
theorem suppressedDataIsNeverUsed : Obligations.SuppressedDataIsNeverUsed := by
  intro i s d data
  unfold ldff1h
  rw [elementLoop_nfData (esize_group_pos i)]
  rfl

end Sys2Proof
end

section
/-! Obligations O46 to O49: the registers and bytes an instruction does not read do not matter. -/

namespace Sys2Proof
open Machine

/-- Two accesses of an element answer alike when it is as active in both and, if active, at the same address with the
same value there. -/
theorem accessElement_congr {vl : Nat} {s s' : State} {d : Draws} {q q' : Gather vl} {e : Nat} {first : Bool}
    (hact : activeElement q'.mask e q'.consts.esize = activeElement q.mask e q.consts.esize)
    (haddr : activeElement q.mask e q.consts.esize = true → q'.addressOf e = q.addressOf e)
    (hstop : ∀ a, s'.memStop a = s.memStop a) (hdevice : ∀ a, s'.touchesDevice a = s.touchesDevice a)
    (hvalue : activeElement q.mask e q.consts.esize = true →
      s'.memValue d (q.addressOf e) = s.memValue d (q.addressOf e)) :
    accessElement s' d q' e first = accessElement s d q e first := by
  unfold accessElement
  rw [hact]
  split
  · next ha =>
    have haddr := haddr ha
    have hvalue := hvalue ha
    unfold Gather.addressOf at haddr hvalue
    have hmem : s'.memFaulting d (elementAddress q.consts q.base q.offset e) =
        s.memFaulting d (elementAddress q.consts q.base q.offset e) := by
      rw [State.memFaulting, hstop, hvalue, ← State.memFaulting]
    have hnf : s'.memNonFaulting d e (elementAddress q.consts q.base q.offset e) =
        s.memNonFaulting d e (elementAddress q.consts q.base q.offset e) := by
      rw [State.memNonFaulting, State.nfPerforms, hstop, hdevice, hvalue, ← State.nfPerforms, ← State.memNonFaulting]
    simp only [haddr, hmem, hnf]
  · rfl

/-- The state with other registers and memory. -/
@[reducible] def withOther (s : State) (x : Vector Word 31) (sp : Word) (z : Vector (BitVec s.vl) 32)
    (p : Vector (BitVec (s.vl / 8)) 16) (mem : List Host.Cell) : State :=
  { s with x := x, sp := sp, z := z, p := p, mem := mem }

section
variable {s : State} {x : Vector Word 31} {sp : Word} {z : Vector (BitVec s.vl) 32} {p : Vector (BitVec (s.vl / 8)) 16}
  {mem : List Host.Cell} {i : Instr} {d : Draws}

/-- Two states whose verdicts and byte order agree read the same halfword from the same two bytes. -/
theorem memValue_withOther {a : Word} (h0 : memGet mem a.toNat = s.byteAt a)
    (h1 : memGet mem (a + 1).toNat = s.byteAt (a + 1)) :
    (withOther s x sp z p mem).memValue d a = s.memValue d a := by
  have hbyte : ∀ b k, memGet mem b.toNat = s.byteAt b → (withOther s x sp z p mem).readByte d b k = s.readByte d b k :=
    fun b k hb => congrArg (fun v => if s.isDevice b then d.deviceByte k else v) hb
  unfold State.memValue
  rw [hbyte a 0 h0, hbyte (a + 1) 1 h1]
  rfl

/-- The other registers and memory agree with the state's in what the instruction reads (10_state.md section 6): the
check of SP, which elements are active, the addresses and bytes of the active ones, and the old destination. -/
structure ReadsAlike (s : State) (x : Vector Word 31) (sp : Word) (z : Vector (BitVec s.vl) 32)
    (p : Vector (BitVec (s.vl / 8)) 16) (mem : List Host.Cell) (i : Instr) : Prop where
  spCheck : i.rn = .sp → (withOther s x sp z p mem).spMisaligned = s.spMisaligned
  active : ∀ e < s.elements i, activeElement ((withOther s x sp z p mem).pReg i.pg) e (constsOf i).esize = s.active i e
  addr : ∀ e, s.active i e = true → (withOther s x sp z p mem).addressOf i e = s.addressOf i e
  bytes : ∀ e, s.active i e = true → memGet mem (s.addressOf i e).toNat = s.byteAt (s.addressOf i e) ∧
    memGet mem (s.addressOf i e + 1).toNat = s.byteAt (s.addressOf i e + 1)
  orig : z[i.zt.val] = s.z[i.zt.val]

variable (h : ReadsAlike s x sp z p mem i)
include h

theorem readsAlike_spCheckFails : (withOther s x sp z p mem).spCheckFails d i = s.spCheckFails d i := by
  have hsome : (withOther s x sp z p mem).someActive i = s.someActive i := by
    rw [Bool.eq_iff_iff, someActive_eq_true_iff, someActive_eq_true_iff]
    refine exists_congr fun e => ?_
    by_cases he : e < s.elements i
    · rw [← h.active e he, active_eq (s := withOther s x sp z p mem) he]
    · have hno : ∀ t : State, t.elements i = s.elements i → ¬ t.active i e = true := fun t ht ha =>
        he (ht ▸ lt_elements_of_active ha)
      exact iff_of_false (hno _ rfl) (hno s rfl)
  unfold State.spCheckFails
  by_cases hrn : i.rn = .sp
  · rw [h.spCheck hrn, hsome]
  · rw [beq_eq_false_iff_ne.mpr hrn]
    rfl

theorem readsAlike_loop :
    elementLoop (withOther s x sp z p mem) d ((withOther s x sp z p mem).gather i) (elementCount s.vl (constsOf i)) 0
        (Loop.start s.ffr) =
      elementLoop s d (s.gather i) (elementCount s.vl (constsOf i)) 0 (Loop.start s.ffr) := by
  have hgather : ((withOther s x sp z p mem).gather i : Gather s.vl) =
      { s.gather i with
        mask := (withOther s x sp z p mem).pReg i.pg
        base := (withOther s x sp z p mem).baseValue i.rn
        offset := (withOther s x sp z p mem).zReg i.zm } :=
    congrArg (fun b => Gather.mk _ _ _ _ b) h.orig
  have hact : ∀ e < elementCount s.vl (constsOf i),
      activeElement ((withOther s x sp z p mem).pReg i.pg) e (constsOf i).esize =
        activeElement (s.pReg i.pg) e (constsOf i).esize := fun e he => (h.active e he).trans (active_eq he)
  rw [hgather]
  refine elementLoop_congr _ _ _ (fun e _ he => hact e (by omega)) fun e first _ he => ?_
  have he : e < elementCount s.vl (constsOf i) := by omega
  have ha : activeElement (s.pReg i.pg) e (constsOf i).esize = true → s.active i e = true := (active_eq he).trans
  exact accessElement_congr (hact e he) (fun hon => h.addr e (ha hon)) (fun _ => rfl) (fun _ => rfl)
    fun hon => memValue_withOther (h.bytes e (ha hon)).1 (h.bytes e (ha hon)).2

/-- An instruction that reads alike does the same to both states: `f` stands for the difference, which a trap and a
completion leave as it is. -/
theorem ldff1h_withOther {f : State → State} (htrap : ∀ e, (withOther s x sp z p mem).trap e = f (s.trap e))
    (hfinish : ∀ v g rs, (withOther s x sp z p mem).finish i.zt v g rs = f (s.finish i.zt v g rs)) :
    ldff1h i d (withOther s x sp z p mem) = mapNext f (ldff1h i d s) := by
  cases hv : vlOk s.vl with
  | false =>
    rw [ldff1h_of_not_vlOk hv, ldff1h_of_not_vlOk (s := withOther s x sp z p mem) hv]
    rfl
  | true =>
  cases ha : s.accessCheck (encode i) with
  | some e =>
    rw [ldff1h_of_accessCheck hv ha, ldff1h_of_accessCheck (s := withOther s x sp z p mem) hv ha, htrap]
    rfl
  | none =>
  have hsp' := readsAlike_spCheckFails (d := d) h
  cases hsp : s.spCheckFails d i with
  | true =>
    rw [ldff1h_of_spCheckFails hv ha hsp, ldff1h_of_spCheckFails (s := withOther s x sp z p mem) hv ha (hsp'.trans hsp),
      htrap]
    rfl
  | false =>
  have hc : PassesChecks s d i := ⟨hv, ha, hsp⟩
  have hc' : PassesChecks (withOther s x sp z p mem) d i := ⟨hv, ha, hsp'.trans hsp⟩
  have hloop := readsAlike_loop (d := d) h
  cases hl : elementLoop s d (s.gather i) (elementCount s.vl (constsOf i)) 0 (Loop.start s.ffr) with
  | error st =>
    rw [ldff1h_of_loop_error hc hl, ldff1h_of_loop_error hc' (hloop.trans hl)]
    cases st with
    | raise e => exact congrArg Host.Outcome.next (htrap e)
    | refuse r => rfl
  | ok l =>
    rw [ldff1h_of_loop_ok hc hl, ldff1h_of_loop_ok hc' (hloop.trans hl)]
    by_cases hpc : s.pc = lastPc
    · rw [complete, complete, if_pos hpc, if_pos (show (withOther s x sp z p mem).pc = lastPc from hpc)]
      rfl
    · rw [complete, complete, if_neg hpc, if_neg (show (withOther s x sp z p mem).pc ≠ lastPc from hpc), hfinish]
      rfl

end

/-- The same of the instruction's own meaning: the two states have the same execution number. -/
theorem exec_withOther {s : State} {x : Vector Word 31} {sp : Word} {z : Vector (BitVec s.vl) 32}
    {p : Vector (BitVec (s.vl / 8)) 16} {mem : List Host.Cell} {i : Instr} (h : ReadsAlike s x sp z p mem i)
    {f : State → State} (htrap : ∀ e, (withOther s x sp z p mem).trap e = f (s.trap e))
    (hfinish : ∀ v g rs, (withOther s x sp z p mem).finish i.zt v g rs = f (s.finish i.zt v g rs)) :
    exec i (withOther s x sp z p mem) = mapNext f (exec i s) := by
  rw [exec_eq_ldff1h, exec_eq_ldff1h]
  exact ldff1h_withOther h htrap hfinish

/-- Element `e` of the instruction is active by its bit of the governing predicate. -/
theorem activeElement_pReg {s : State} {i : Instr} {e : Nat} (he : e < s.elements i) :
    activeElement (s.pReg i.pg) e (constsOf i).esize = s.active i e :=
  (active_eq he).symm

/-- Settles O46: an X register or SP that is written is not the base of an active element, and SP's check answers
alike. -/
theorem unreadScalarRegistersDoNotMatter : Obligations.UnreadScalarRegistersDoNotMatter := by
  refine ⟨fun i s n v h => ?_, fun i s v h => ?_⟩
  · have hbase : ∀ e, s.active i e = true →
        (withOther s (s.x.set n.val v) s.sp s.z s.p s.mem).baseValue i.rn = s.baseValue i.rn := by
      intro e he
      cases hrn : i.rn with
      | sp => rfl
      | x m =>
        have hne : n.val ≠ m.val := fun hnm => by
          have := h (hrn.trans (congrArg Base.x (Fin.ext hnm.symm))) e
          rw [he] at this
          cases this
        exact Vector.getElem_set_ne n.isLt m.isLt hne
    have alike : ReadsAlike s (s.x.set n.val v) s.sp s.z s.p s.mem i :=
      { spCheck := fun _ => rfl
        active := fun _ he => activeElement_pReg he
        addr := fun e he => congrArg (fun b => elementAddress (constsOf i) b (s.zReg i.zm) e) (hbase e he)
        bytes := fun _ _ => ⟨rfl, rfl⟩
        orig := rfl }
    exact exec_withOther alike (fun _ => rfl) fun _ _ _ => rfl
  · have alike : ReadsAlike s s.x v s.z s.p s.mem i :=
      { spCheck := fun hrn => (h hrn).2
        active := fun _ he => activeElement_pReg he
        addr := fun e he => by
          cases hrn : i.rn with
          | x m => simp only [State.addressOf, hrn]; rfl
          | sp => simp [(h hrn).1 e] at he
        bytes := fun _ _ => ⟨rfl, rfl⟩
        orig := rfl }
    exact exec_withOther alike (fun _ => rfl) fun _ _ _ => rfl

/-- Settles O47: such a register is not the old destination, nor the offsets of an active element. -/
theorem unreadVectorRegistersDoNotMatter : Obligations.UnreadVectorRegistersDoNotMatter := by
  intro i s r v hzt hzm
  have hzt : r.val ≠ i.zt.val := fun he => hzt (Fin.ext he)
  have hoffset : ∀ e, s.active i e = true → (s.z.set r.val (BitVec.ofNat _ v))[i.zm.val] = s.z[i.zm.val] := by
    intro e he
    refine Vector.getElem_set_ne _ _ fun hr => ?_
    rw [hzm (Fin.ext hr) e] at he
    cases he
  have alike : ReadsAlike s s.x s.sp (s.z.set r.val (BitVec.ofNat _ v)) s.p s.mem i :=
    { spCheck := fun _ => rfl
      active := fun _ he => activeElement_pReg he
      addr := fun e he => congrArg (fun o => elementAddress (constsOf i) (s.baseValue i.rn) o e) (hoffset e he)
      bytes := fun _ _ => ⟨rfl, rfl⟩
      orig := Vector.getElem_set_ne _ _ hzt }
  refine exec_withOther alike (fun _ => rfl) fun w g rs => ?_
  have hcomm : (s.z.set r.val (BitVec.ofNat _ v)).set i.zt.val w = (s.z.set i.zt.val w).set r.val (BitVec.ofNat _ v) :=
    Vector.set_comm _ _ hzt
  simp only [State.finish, hcomm]

/-- Settles O48: the governing predicate as written makes the same elements active, and no other is read. -/
theorem onlyGoverningPredicateBitsMatter : Obligations.OnlyGoverningPredicateBitsMatter := by
  intro i s g v h
  have alike : ReadsAlike s s.x s.sp s.z (s.p.set g.val (BitVec.ofNat _ v)) s.mem i :=
    { spCheck := fun _ => rfl
      active := fun e he => by
        rw [State.pReg]
        by_cases hg : g.val = i.pg.val
        · simp only [← hg, Vector.getElem_set_self]
          exact h hg e he
        · rw [Vector.getElem_set_ne _ _ hg]
          exact activeElement_pReg he
      addr := fun _ _ => rfl
      bytes := fun _ _ => ⟨rfl, rfl⟩
      orig := rfl }
  exact exec_withOther alike (fun _ => rfl) fun _ _ _ => rfl

/-- Settles O49: a write to the byte leaves those at the addresses of active elements alone. -/
theorem unaddressedMemoryDoesNotMatter : Obligations.UnaddressedMemoryDoesNotMatter := by
  intro i s a v h
  have alike : ReadsAlike s s.x s.sp s.z s.p (memPut s.mem a v) i :=
    { spCheck := fun _ => rfl
      active := fun _ he => activeElement_pReg he
      addr := fun _ _ => rfl
      bytes := fun e he => ⟨memGet_memPut_other (h e he).1.symm v s.mem, memGet_memPut_other (h e he).2.symm v s.mem⟩
      orig := rfl }
  exact exec_withOther alike (fun _ => rfl) fun _ _ _ => rfl

end Sys2Proof
end
